-- ==== Sys2Proof/Word.lean ====
section
/-! DEFINITION. The widths of the block's registers (10_state.md R20), the two enumerations of 00_scope.md R5
(phases, error codes), and the header as the wire and the registers hold it. -/

namespace Sys2Proof

/-- A byte: 8 bits, bit 7 the most significant (R8). -/
abbrev Byte := BitVec 8

/-- A 4-bit header field: `protocol`, `target_mode` (R23, R25). -/
abbrev Nibble := BitVec 4

/-- A 12-bit identifier: `target`, `source` (R24, R26). -/
abbrev Ident := BitVec 12

/-- A 16-bit counter or buffer address: `size`, `remaining`, `buf_len`, the operand of RDPAY (R28 to R31, R50). -/
abbrev Half := BitVec 16

/-- A 32-bit offset: `err_offset`, an index inside a chunk (R33). -/
abbrev Offset := BitVec 32

/-- The five values of `phase` (R21); the codes 5, 6 and 7 are never taken, so the type has no constructor for them
(93_implementation_defined.md U7). -/
inductive Phase
  | idle
  | hunt
  | collect
  | done
  | failed
deriving DecidableEq, Repr

/-- The four values of `err_code` (R32, R191); 4 to 7 are never taken (U7). -/
inductive ErrCode
  | none
  | malformedHeader
  | overDelivery
  | timeout
deriving DecidableEq, Repr

/-- The six header fields, registers S2 to S7 (R20, R23 to R28). They change together (R56). -/
structure Header where
  protocol   : Nibble
  target     : Ident
  targetMode : Nibble
  source     : Ident
  cmd        : Byte
  size       : Half
deriving DecidableEq, Repr

/-- The 7 header bytes `h[0]` to `h[6]` in arrival order (R71, R73). -/
structure HdrBytes where
  h0 : Byte
  h1 : Byte
  h2 : Byte
  h3 : Byte
  h4 : Byte
  h5 : Byte
  h6 : Byte
deriving DecidableEq, Repr

end Sys2Proof
end

