-- ==== Sys2Proof/Config.lean ====
section
/-! DEFINITION. What an implementation of the block fixes (the two rows of 00_scope.md R5 marked "parameter") and the
two values the spec leaves free. The constants of R5 and the parameters' default values stand in
Sys2Proof/Machine/Parameters.lean. -/

namespace Sys2Proof

/-- The parameters of R5. `chunkMax` is 32 bits wide, so that every index inside a chunk fits `err_offset` (R33, R140). -/
structure Params where
  /-- `PROTOCOL_LOW_NIBBLE` (R74, D5, U6): which nibble of a shared byte holds the 4-bit field. -/
  protocolLowNibble : Bool
  /-- `CHUNK_MAX` (D14, U4): the longest chunk the environment may present. -/
  chunkMax : Offset
deriving DecidableEq, Repr

/-- FREE VALUE: what a byte of `BUF` that no contribution has written holds (R43 "the contents of `BUF` are
unspecified", U2 "any value"). Log entry 7. -/
opaque Config.bufPowerOn : Nat → Byte

/-- FREE VALUE: what the pin `rd_data` shows when the address sampled was outside the read window (R172, U3 "any
value"), one draw per clock cycle. Log entry 8. -/
opaque Config.rdDataFree : Nat → Byte

end Sys2Proof
end

