-- ==== Sys2Proof/Machine/Ports.lean ====
section
/-! DEFINITION. What stands at the block's ports: the words that request an operation (30_encoding.md R82, R83), the
input and output pins of the decided binding (10_state.md R40), and the stimuli the environment applies (R7, R220). -/

namespace Sys2Proof.Machine

/-- What the environment puts at the ports to have an operation performed. The spec gives the read operations no
request code (R83, R89), so they are the pin activity R83 names. Log entry 4. -/
inductive PortWord
  /-- The request vector `req = {cancel, start, commit}` with the chunk just completed as the operand of `commit` (R83). -/
  | request (req : BitVec 3) (chunk : List Byte)
  /-- The output pins S0, S1, S8 to S11 are sampled: RDSTAT (R40, R83). -/
  | sampleStatus
  /-- The output pins S2 to S7 are sampled: RDHDR (R40, R83). -/
  | sampleHeader
  /-- `rd_addr` is driven: RDPAY (R83). -/
  | readAddress (a : Half)
  /-- The bytes of one wire unit, delivered in one chunk: row FRAME.HDR where they are a frame (R71, R89). -/
  | wire (bytes : List Byte)
deriving DecidableEq, Repr

/-- The input pins sampled at one rising edge of `clk` (R40). -/
structure PinIn where
  rst     : Bool
  inValid : Bool
  inData  : Byte
  inLast  : Bool
  start   : Bool
  cancel  : Bool
  rdAddr  : Half
deriving DecidableEq, Repr

/-- The output pins (R40). -/
structure PinOut where
  inReady    : Bool
  phase      : BitVec 3
  hdrMatched : Bool
  protocol   : Nibble
  target     : Ident
  targetMode : Nibble
  source     : Ident
  cmd        : Byte
  size       : Half
  remaining  : Half
  bufLen     : Half
  errCode    : BitVec 3
  errOffset  : Offset
  evDone     : Bool
  evErr      : Bool
  rdData     : Byte
deriving DecidableEq, Repr

/-- One thing the environment does to the block: apply a port word (R6), spend a clock cycle at the pins (R40 to R42),
or insert a hardware reset between two operations (R220). -/
inductive Stimulus
  | reset
  | port (w : PortWord)
  | cycle (p : PinIn)
deriving DecidableEq, Repr

end Sys2Proof.Machine
end

