-- ==== Sys2Proof/Machine/Flags.lean ====
section
/-! DEFINITION. The codes of `phase` and `err_code`, the three named flags and the status word (10_state.md R21, R32,
R34). The block has no arithmetic condition codes. -/

namespace Sys2Proof.Machine

/-- The 3-bit code of a phase (R5, R21). -/
def phaseCode : Phase → BitVec 3
  | .idle => 0#3
  | .hunt => 1#3
  | .collect => 2#3
  | .done => 3#3
  | .failed => 4#3

/-- The 3-bit code of an error (R5, R32, R191). -/
def errCodeBits : ErrCode → BitVec 3
  | .none => 0#3
  | .malformedHeader => 1#3
  | .overDelivery => 2#3
  | .timeout => 3#3

/-- The flag `active`: HUNT and COLLECT are the active phases (R21, R34). -/
def isActive : Phase → Bool
  | .idle => false
  | .hunt => true
  | .collect => true
  | .done => false
  | .failed => false

/-- The flag `done` (R34). -/
def isDone : Phase → Bool
  | .idle => false
  | .hunt => false
  | .collect => false
  | .done => true
  | .failed => false

/-- The flag `failed` (R34). -/
def isFailed : Phase → Bool
  | .idle => false
  | .hunt => false
  | .collect => false
  | .done => false
  | .failed => true

/-- `STATUS = {0, err_code[2:0], hdr_matched, phase[2:0]}` (R34, R170). -/
def statusWord (ph : Phase) (hm : Bool) (e : ErrCode) : BitVec 8 :=
  0#1 ++ errCodeBits e ++ BitVec.ofBool hm ++ phaseCode ph

end Sys2Proof.Machine
end

