-- ==== Sys2Proof/Machine/Parameters.lean ====
section
/-! DEFINITION. The constants and default parameter values of the table in 00_scope.md R5. -/

namespace Sys2Proof.Machine

/-- `MARKER_BYTE` (R5, R72). -/
def markerByte : Byte := 0x7E#8

/-- `MARKER_LEN` (R5, R72). -/
def markerLen : Nat := 4

/-- `HDR_LEN` (R5, R73). -/
def hdrLen : Nat := 7

/-- `BUF_BYTES` (R5, R31, R50): the buffer's addresses are 0 to 65534. -/
def bufBytes : Nat := 65535

/-- The default values of the two parameters (R5). -/
def defaultParams : Params := { protocolLowNibble := true, chunkMax := 0xFFFFFFFF#32 }

end Sys2Proof.Machine
end

