-- ==== Sys2Proof/Machine/Wire.lean ====
section
/-! DEFINITION. The wire frame: the marker and its search (30_encoding.md R72, 40_frame_synchronizer.md R102), the
header's layout in both directions (R74 to R80, R88), and the byte-list macros of the notation (R87). -/

namespace Sys2Proof.Machine

/-- The marker: four consecutive bytes `0x7E` (R72); the macro `MARK` (R87). -/
def mark : List Byte := List.replicate markerLen markerByte

/-- Whether the marker begins at the first byte of `c`. -/
def startsWithMark (c : List Byte) : Bool := decide (c.take markerLen = mark)

/-- `find_marker(c)`: the least index at which the marker lies wholly inside the chunk (R102). -/
def findMarker : List Byte → Option Nat
  | [] => none
  | b :: c => if startsWithMark (b :: c) then some 0 else (findMarker c).map (· + 1)

/-- The header bytes and the payload slice after a marker, if all `HDR_LEN` = 7 header bytes are there
(R71, R81, R100: `len(c) - (i + 4) >= 7`). -/
def splitHeader : List Byte → Option (HdrBytes × List Byte)
  | h0 :: h1 :: h2 :: h3 :: h4 :: h5 :: h6 :: slice => some (⟨h0, h1, h2, h3, h4, h5, h6⟩, slice)
  | _ => none

/-- The 4-bit field of a shared byte (R75, R77). -/
def sharedField (low : Bool) (shared : Byte) : Nibble :=
  if low then shared.setWidth 4 else (shared >>> 4).setWidth 4

/-- The 12-bit identifier whose low 4 bits stand in a shared byte and whose high 8 bits are the next byte (R76, R78). -/
def sharedIdent (low : Bool) (shared next : Byte) : Ident :=
  (next.setWidth 12 <<< 4) ||| (if low then (shared >>> 4).setWidth 12 else (shared.setWidth 4).setWidth 12)

/-- `extract(h)`: the six fields of a header (R75 to R80); `low` is `PROTOCOL_LOW_NIBBLE`. -/
def extract (low : Bool) (h : HdrBytes) : Header where
  protocol := sharedField low h.h0
  target := sharedIdent low h.h0 h.h1
  targetMode := sharedField low h.h2
  source := sharedIdent low h.h2 h.h3
  cmd := h.h4
  size := (h.h6.setWidth 16 <<< 8) ||| h.h5.setWidth 16

/-- The shared byte that holds a 4-bit field and the low 4 bits of an identifier (R74, R88). -/
def shareByte (low : Bool) (field : Nibble) (ident : Ident) : Byte :=
  if low then (ident.setWidth 8 <<< 4) ||| field.setWidth 8
  else (field.setWidth 8 <<< 4) ||| (ident.setWidth 4).setWidth 8

/-- `hdr_bytes(p, t, m, s, c, z)`, the inverse of `extract` (R88); the macro `HDR` (R87). R88 states it for
`PROTOCOL_LOW_NIBBLE` = true; the other value composes by the other branch of R75 to R78. -/
def hdrBytes (low : Bool) (h : Header) : HdrBytes where
  h0 := shareByte low h.protocol h.target
  h1 := (h.target >>> 4).setWidth 8
  h2 := shareByte low h.targetMode h.source
  h3 := (h.source >>> 4).setWidth 8
  h4 := h.cmd
  h5 := h.size.setWidth 8
  h6 := (h.size >>> 8).setWidth 8

/-- The header bytes in arrival order. -/
def hdrList (h : HdrBytes) : List Byte := [h.h0, h.h1, h.h2, h.h3, h.h4, h.h5, h.h6]

/-- The bytes of a wire unit: marker, header, and the payload bytes of the same chunk (R71). -/
def frameBytes (low : Bool) (h : Header) (slice : List Byte) : List Byte :=
  mark ++ hdrList (hdrBytes low h) ++ slice

end Sys2Proof.Machine
end

