-- ==== Sys2Proof/Machine/Operands.lean ====
section
/-! DEFINITION. The operand forms of 30_encoding.md R82 (none, one chunk, one 16-bit address): what a chunk operand
holds, which of the five CHUNK cases it selects (40_frame_synchronizer.md R100), and the read window of RDPAY
(43_readout.md R172). -/

namespace Sys2Proof.Machine

/-- What the marker search finds in a chunk, read without any state (R102, R105, R106). -/
inductive Contents
  /-- `find_marker(c)` = NONE. -/
  | noMarker
  /-- The marker is at index `i` and fewer than 7 bytes follow it. -/
  | shortHeader (i : Nat)
  /-- The marker is at index `i`; the header bytes and the initial payload slice follow. -/
  | frame (i : Nat) (h : HdrBytes) (slice : List Byte)
deriving DecidableEq, Repr

/-- The contents of a chunk (R71, R81, R100, R102). -/
def contents (c : List Byte) : Contents :=
  match findMarker c with
  | none => .noMarker
  | some i =>
    match splitHeader (c.drop (i + markerLen)) with
    | none => .shortHeader i
    | some (h, slice) => .frame i h slice

/-- The five cases of CHUNK with what each takes from the chunk (R100). -/
inductive ChunkCase
  | ignored
  | sync (h : HdrBytes) (slice : List Byte)
  | malformed (i : Nat)
  | cont
  | noise
deriving DecidableEq, Repr

/-- The case of CHUNK(`c`) in a state with this `phase` and `hdr_matched`, in the order of R100
(log entry 15). -/
def chunkCase (ph : Phase) (hm : Bool) (c : List Byte) : ChunkCase :=
  if isActive ph then
    match contents c with
    | .frame _ h slice => .sync h slice
    | .shortHeader i => .malformed i
    | .noMarker => if hm then .cont else .noise
  else .ignored

/-- `len(c) <= CHUNK_MAX` (R9, R100); a longer chunk is refused (R11). -/
def chunkFits (p : Params) (c : List Byte) : Bool := decide (c.length ≤ p.chunkMax.toNat)

/-- The read window of RDPAY: `phase` = DONE and `a < buf_len` (R172). -/
def inReadWindow (ph : Phase) (bufLen a : Half) : Bool := isDone ph && decide (a.toNat < bufLen.toNat)

end Sys2Proof.Machine
end

