-- ==== Sys2Proof/Syntax.lean ====
section
/-! DEFINITION. The instructions: one constructor for each of the eleven rows of spec/opcode_table.json. -/

namespace Sys2Proof

/-- The rows of the opcode table (30_encoding.md R82, R89). CHUNK is one operation with five cases selected by the
state and the chunk's contents; each case is a row, and each row's constructor carries the whole chunk (R9). -/
inductive Instr
  /-- START (42_session_control.md R150). -/
  | start
  /-- CANCEL (R152 in an active phase, R153 in an inactive one). -/
  | cancel
  /-- CHUNK.IGNORED (40_frame_synchronizer.md R101). -/
  | chunkIgnored (c : List Byte)
  /-- CHUNK.SYNC (R105). -/
  | chunkSync (c : List Byte)
  /-- CHUNK.MALFORMED (R106). -/
  | chunkMalformed (c : List Byte)
  /-- CHUNK.CONT (R107). -/
  | chunkCont (c : List Byte)
  /-- CHUNK.NOISE (R108). -/
  | chunkNoise (c : List Byte)
  /-- RDSTAT (43_readout.md R170). -/
  | rdstat
  /-- RDHDR (R171). -/
  | rdhdr
  /-- RDPAY(`a`) (R172). -/
  | rdpay (a : Half)
  /-- FRAME.HDR: the wire unit marker, header, and the payload bytes that follow in the same chunk
  (R71, R74, R89; the `FRAME` of R87 is this row with `h.size` the number of bytes). -/
  | frameHdr (h : Header) (slice : List Byte)
deriving DecidableEq, Repr

end Sys2Proof
end

