-- ==== Sys2Proof/WellFormed.lean ====
section
/-! DEFINITION. When a term of Instr is an instruction of the table: its chunk is no longer than CHUNK_MAX, and the
contents of a CHUNK row's chunk are what the row's `select` asks of them (the part of `select` that reads no state). -/

namespace Sys2Proof

open Machine

/-- The well-formedness check of an instruction (R82, R100 to R108, and the `select` fields of the opcode table). -/
def Instr.wellFormed (p : Params) : Instr → Bool
  | .start => true
  | .cancel => true
  | .chunkIgnored c => chunkFits p c
  | .chunkSync c => chunkFits p c && (match contents c with | .frame _ _ _ => true | .shortHeader _ => false | .noMarker => false)
  | .chunkMalformed c => chunkFits p c && (match contents c with | .frame _ _ _ => false | .shortHeader _ => true | .noMarker => false)
  | .chunkCont c => chunkFits p c && (match contents c with | .frame _ _ _ => false | .shortHeader _ => false | .noMarker => true)
  | .chunkNoise c => chunkFits p c && (match contents c with | .frame _ _ _ => false | .shortHeader _ => false | .noMarker => true)
  | .rdstat => true
  | .rdhdr => true
  | .rdpay _ => true
  | .frameHdr h slice => chunkFits p (frameBytes p.protocolLowNibble h slice)

end Sys2Proof
end

