-- ==== Sys2Proof/Decode.lean ====
section
/-! DEFINITION. The decoder from port words to instructions (30_encoding.md R82, R83, R89), the frame decoder
(R71, R74), and the encoder. Which row a CHUNK request is depends on the state (R100), so the decoder reads the
sequencing state (`phase` and `hdr_matched`, R37) and the parameters beside the word. -/

namespace Sys2Proof

open Machine

/-- What the decoder reads beside the word: the parameters and the sequencing state (R37). -/
structure DecodeContext where
  params     : Params
  phase      : Phase
  hdrMatched : Bool
deriving DecidableEq, Repr

/-- Why a word gives no instruction. -/
inductive Reject
  /-- `req = 0b000` is no operation (R83). -/
  | noOperation
  /-- The chunk is longer than CHUNK_MAX (R11, R100). -/
  | chunkTooLong
  /-- The bytes do not begin with the marker (R72). -/
  | noMarker
  /-- Fewer than 7 header bytes follow the marker (R73, R106). -/
  | shortHeader
deriving DecidableEq, Repr

/-- The bits of the request vector `{cancel, start, commit}` (R83). -/
def reqCancel (req : BitVec 3) : Bool := req.getLsbD 2

/-- `req[1]` (R83). -/
def reqStart (req : BitVec 3) : Bool := req.getLsbD 1

/-- `req[0]` (R83). -/
def reqCommit (req : BitVec 3) : Bool := req.getLsbD 0

/-- The request vector with these bits (R83). -/
def mkReq (cancel start commit : Bool) : BitVec 3 :=
  BitVec.ofBool cancel ++ BitVec.ofBool start ++ BitVec.ofBool commit

/-- What is still requested once the operations named before have been performed; nothing where no bit is left. -/
def restOfRequest (start commit : Bool) (c : List Byte) : Option PortWord :=
  if start || commit then some (.request (mkReq false start commit) c) else none

/-- The row of the table that CHUNK(`c`) is in this context (R100 and the table's `select`). -/
def selectRow (ctx : DecodeContext) (c : List Byte) : Instr :=
  match chunkCase ctx.phase ctx.hdrMatched c with
  | .ignored => .chunkIgnored c
  | .sync _ _ => .chunkSync c
  | .malformed _ => .chunkMalformed c
  | .cont => .chunkCont c
  | .noise => .chunkNoise c

/-- CHUNK(`c`): its row, or the rejection of a chunk longer than CHUNK_MAX (R100). -/
def decodeChunk (ctx : DecodeContext) (c : List Byte) : Except Reject Instr :=
  if chunkFits ctx.params c then .ok (selectRow ctx c) else .error .chunkTooLong

/-- The wire decoder: marker, seven header bytes, the rest of the chunk (R71, R74, row FRAME.HDR). -/
def decodeFrame (low : Bool) (bytes : List Byte) : Except Reject (Header × List Byte) :=
  if startsWithMark bytes then
    match splitHeader (bytes.drop markerLen) with
    | some (h, slice) => .ok (extract low h, slice)
    | none => .error .shortHeader
  else .error .noMarker

/-- The first operation a port word requests and what it still requests after it. Several request bits are performed
in the order CANCEL, START, CHUNK (R83). Wire bytes that are not a frame are a chunk like any other (R100; log entry 20). -/
def decode (ctx : DecodeContext) : PortWord → Except Reject (Instr × Option PortWord)
  | .request req c =>
    if reqCancel req then .ok (.cancel, restOfRequest (reqStart req) (reqCommit req) c)
    else if reqStart req then .ok (.start, restOfRequest false (reqCommit req) c)
    else if reqCommit req then (decodeChunk ctx c).map (fun i => (i, none))
    else .error .noOperation
  | .sampleStatus => .ok (.rdstat, none)
  | .sampleHeader => .ok (.rdhdr, none)
  | .readAddress a => .ok (.rdpay a, none)
  | .wire bytes =>
    if chunkFits ctx.params bytes then
      match decodeFrame ctx.params.protocolLowNibble bytes with
      | .ok (h, slice) => .ok (.frameHdr h slice, none)
      | .error _ => .ok (selectRow ctx bytes, none)
    else .error .chunkTooLong

/-- The encoder: the port word of an instruction, from the same tables (R82, R83, R88, R89). -/
def encode (p : Params) : Instr → PortWord
  | .start => .request 0b010#3 []
  | .cancel => .request 0b100#3 []
  | .chunkIgnored c => .request 0b001#3 c
  | .chunkSync c => .request 0b001#3 c
  | .chunkMalformed c => .request 0b001#3 c
  | .chunkCont c => .request 0b001#3 c
  | .chunkNoise c => .request 0b001#3 c
  | .rdstat => .sampleStatus
  | .rdhdr => .sampleHeader
  | .rdpay a => .readAddress a
  | .frameHdr h slice => .wire (frameBytes p.protocolLowNibble h slice)

/-- Whether the state part of a row's `select` holds: the five CHUNK rows share one word, and this is what tells them
apart (R100, R89). Every other row is selected by its word alone. -/
def Instr.selectedIn (ctx : DecodeContext) : Instr → Bool
  | .start => true
  | .cancel => true
  | .chunkIgnored c => decide (selectRow ctx c = .chunkIgnored c)
  | .chunkSync c => decide (selectRow ctx c = .chunkSync c)
  | .chunkMalformed c => decide (selectRow ctx c = .chunkMalformed c)
  | .chunkCont c => decide (selectRow ctx c = .chunkCont c)
  | .chunkNoise c => decide (selectRow ctx c = .chunkNoise c)
  | .rdstat => true
  | .rdhdr => true
  | .rdpay _ => true
  | .frameHdr _ _ => true

/-- `n` bytes of a number, the first byte its least significant 8 bits (the numbering of spec/opcode_table.json). -/
def bytesOfNat : Nat → Nat → List Byte
  | 0, _ => []
  | n + 1, w => BitVec.ofNat 8 w :: bytesOfNat n (w / 256)

/-- The port word a row's bits stand for: 88 bits are the wire pattern of FRAME.HDR, fewer are the request vector with
an empty chunk operand (R89). The vector has 3 bits: a larger number requests nothing. -/
def tableWord (nbits w : Nat) : PortWord :=
  if nbits = 88 then .wire (bytesOfNat 11 w)
  else .request (BitVec.ofNat 3 (if w < 8 then w else 0)) []

/-- The context right after reset: phase IDLE, no header matched (R43), default parameters (R5). -/
def resetContext : DecodeContext := { params := defaultParams, phase := .idle, hdrMatched := false }

/-- The instruction the decoder reads, right after reset, from a table row's bits (log entry 12). -/
def decodeTableWord (nbits w : Nat) : Option Instr :=
  match decode resetContext (tableWord nbits w) with
  | .ok (i, _) => some i
  | .error _ => none

end Sys2Proof
end

