-- ==== Sys2Proof/Machine/State.lean ====
section
/-! DEFINITION. The machine's state: the thirteen items S0 to S12 of 10_state.md R20 (the structure Block), the pin
level's registers of R40 and R41, and the model's own fields (parameters, outputs of the last operation, the
environment's stimuli, the counter of free draws). Reset values: R43. -/

namespace Sys2Proof.Machine

/-- The payload buffer `BUF` (S12) as address and byte pairs, addresses strictly rising. An unlisted address holds no
byte that a contribution wrote (R31, R43; log entry 7). -/
abbrev Memory := List Host.Cell

/-- The event output of an operation (R39). -/
inductive Event
  | evNone
  | evDone (hdr : Header) (payload : List Byte)
  | evErr (code : ErrCode) (offset : Offset)
deriving DecidableEq, Repr

/-- The record RDSTAT returns (R170). -/
structure StatusRecord where
  status    : BitVec 8
  remaining : Half
  bufLen    : Half
  errOffset : Offset
deriving DecidableEq, Repr

/-- The result of a read operation (R170 to R172). -/
inductive ReadResult
  | status (r : StatusRecord)
  | header (h : Header)
  | payload (b : Byte)
deriving DecidableEq, Repr

/-- What the last operation gave its issuer: its event and, for a read, its result (R10, R39; log entry 2). -/
structure Output where
  event  : Event
  result : Option ReadResult
deriving DecidableEq, Repr

/-- The architectural state: exactly the items S0 to S12 of R20. -/
structure Block where
  /-- S0 (R21). -/
  phase      : Phase
  /-- S1 (R22). -/
  hdrMatched : Bool
  /-- S2 to S7: `protocol`, `target`, `target_mode`, `source`, `cmd`, `size` (R23 to R28). -/
  hdr        : Header
  /-- S8 (R29). -/
  remaining  : Half
  /-- S9 (R30). -/
  bufLen     : Half
  /-- S10 (R32). -/
  errCode    : ErrCode
  /-- S11 (R33). -/
  errOffset  : Offset
  /-- S12 (R31). -/
  buf        : Memory
deriving DecidableEq, Repr

/-- The whole state of the model. -/
structure State extends Block where
  /-- The parameters of R5, carried as an argument; nothing writes them (R38; log entry 3). -/
  params : Params
  /-- Event and result of the last operation (R10, R39; log entry 2). -/
  out    : Output
  /-- Pin `ev_done`: an operation of the last clock cycle emitted EV_DONE (R40). -/
  evDone : Bool
  /-- Pin `ev_err`: an operation of the last clock cycle emitted EV_ERR (R40). -/
  evErr  : Bool
  /-- Pin `rd_data` (R40; log entry 8). -/
  rdData : Byte
  /-- The staging state of R41 but for `drop`: the bytes accepted so far of the chunk in progress at the pins; the byte
  index, run length, header bytes and write address are views of them (Sys2Proof/Machine/Pins.lean). -/
  staged : List Byte
  /-- The one-bit `drop` flag of R41 and R42. -/
  drop   : Bool
  /-- How many free values have been drawn (the model's own; log entry 8). -/
  draws  : Nat
  /-- What the environment does next, first thing first (the model's own; log entry 1). -/
  inputs : List Stimulus
deriving DecidableEq, Repr

/-- Why the machine stops with a fault. -/
inductive Fault
  /-- Raised by `contribute` (CHUNK.SYNC, CHUNK.CONT, FRAME.HDR) where a byte would go to an address above 65534, which
  does not exist (R50). SAFE: only in states that break R35, which no run from reset reaches (R59; log entry 9). -/
  | noSuchBufferAddress
deriving DecidableEq, Repr

/-- Why the machine gives an operation no step. -/
inductive Refusal
  /-- Answered by `exec` for an instruction without a meaning. SAFE. No arm answers it. -/
  | notModelled (mnemonic : String)
  /-- Answered by every CHUNK row and FRAME.HDR for a chunk longer than CHUNK_MAX (R11, R100). SAFE. -/
  | chunkTooLong
  /-- Answered by RDPAY outside the read window (R11, R172). SAFE. -/
  | outsideReadWindow
deriving DecidableEq, Repr

/-- What one operation answers. -/
abbrev Result := Host.Outcome State Fault Refusal

/-- Six header fields, all 0 (R43). -/
def zeroHeader : Header :=
  { protocol := 0#4, target := 0#12, targetMode := 0#4, source := 0#12, cmd := 0#8, size := 0#16 }

/-- The machine right after reset (R43, R220). The buffer lists nothing: its contents are unspecified. -/
def State.reset : State where
  phase := .idle
  hdrMatched := false
  hdr := zeroHeader
  remaining := 0#16
  bufLen := 0#16
  errCode := .none
  errOffset := 0#32
  buf := []
  params := defaultParams
  out := { event := .evNone, result := none }
  evDone := false
  evErr := false
  rdData := 0#8
  staged := []
  drop := false
  draws := 0
  inputs := []

end Sys2Proof.Machine
end

