-- ==== Sys2Proof/Machine/Ops.lean ====
section
/-! DEFINITION. The named operations over the buffer and the registers: reading and writing `BUF` (20_memory.md R50 to
R55), giving an event (R39), error entry and the way out of an error (60_exceptions.md R193, R199), the header load
(40_frame_synchronizer.md R105) and `contribute` (41_payload_reassembler.md R130). -/

namespace Sys2Proof.Machine

/-- The byte last written at an address, if a contribution wrote one. -/
def Memory.lookup : Memory → Nat → Option Byte
  | [], _ => none
  | (k, v) :: m, a => if k = a then some v else Memory.lookup m a

/-- `MemRead(a, 1)` (R10, R60): the byte last written there; a free value where none was (R43; log entry 7). -/
def Memory.read (m : Memory) (a : Nat) : Byte := (Memory.lookup m a).getD (Config.bufPowerOn a)

/-- `MemWrite(a, 1, v)` (R10, R55). -/
def Memory.write : Memory → Nat → Byte → Memory
  | [], a, v => [(a, v)]
  | (k, w) :: m, a, v =>
    if a < k then (a, v) :: (k, w) :: m
    else if a = k then (a, v) :: m
    else (k, w) :: Memory.write m a v

/-- Writes to consecutive addresses in ascending order (R52, R55). -/
def Memory.writeBytes : Memory → Nat → List Byte → Memory
  | m, _, [] => m
  | m, a, v :: vs => Memory.writeBytes (Memory.write m a v) (a + 1) vs

/-- `BUF[a .. a + n - 1]`. -/
def Memory.readRange (m : Memory) : Nat → Nat → List Byte
  | _, 0 => []
  | a, n + 1 => Memory.read m a :: Memory.readRange m (a + 1) n

/-- Addresses strictly rising. -/
def Memory.rising : Memory → Bool
  | [] => true
  | (k, _) :: m => m.all (fun c => decide (k < c.1)) && Memory.rising m

/-- The canonical form: addresses strictly rising and all of them addresses of `BUF` (R50, R58). -/
def Memory.wf (m : Memory) : Bool := Memory.rising m && m.all (fun c => decide (c.1 < bufBytes))

/-- Whether an event is EV_DONE. -/
def Event.isDone : Event → Bool
  | .evNone => false
  | .evDone _ _ => true
  | .evErr _ _ => false

/-- Whether an event is EV_ERR. -/
def Event.isErr : Event → Bool
  | .evNone => false
  | .evDone _ _ => false
  | .evErr _ _ => true

/-- `emit EV` and `return v` (R10): the operation's outputs, and the event pins of R40 (log
entry 19). -/
def emit (ev : Event) (res : Option ReadResult) (s : State) : State :=
  { s with
    out := { event := ev, result := res }
    evDone := s.evDone || ev.isDone
    evErr := s.evErr || ev.isErr }

/-- `raise E(info)` (R193): error entry. What the operation assigned before the raise is in `s`; the same entry is
CANCEL's with TIMEOUT (R152). Nothing else is saved. -/
def enterFailed (e : ErrCode) (info : Offset) (s : State) : State :=
  emit (.evErr e info) none { s with phase := .failed, errCode := e, errOffset := info }

/-- Every register S0 to S11 at its initial value but for the phase (R43, R150). `BUF` is not written (R31, R44). -/
def freshRegisters (ph : Phase) (s : State) : State :=
  { s with
    phase := ph
    hdrMatched := false
    hdr := zeroHeader
    remaining := 0#16
    bufLen := 0#16
    errCode := .none
    errOffset := 0#32 }

/-- The only way out of FAILED but reset: a fresh session (R150, R199). -/
def openSession (s : State) : State := emit .evNone none (freshRegisters .hunt s)

/-- Hardware reset (R220): the registers of R43, the staging state of R41 cleared, no event (log entries 7 and 18). -/
def hardReset (s : State) : State :=
  { freshRegisters .idle s with
    out := { event := .evNone, result := none }
    evDone := false
    evErr := false
    staged := []
    drop := false }

/-- The header load of CHUNK.SYNC (R105, R139): registers S1 to S9. -/
def loadHeader (h : Header) (s : State) : State :=
  { s with hdr := h, hdrMatched := true, bufLen := 0#16, remaining := h.size }

/-- The append step of `contribute` (R130): the bytes stored at `buf_len` on, the two counters moved. -/
def appendBytes (bs : List Byte) (s : State) : State :=
  { s with
    buf := Memory.writeBytes s.buf s.bufLen.toNat bs
    bufLen := s.bufLen + BitVec.ofNat 16 bs.length
    remaining := s.remaining - BitVec.ofNat 16 bs.length }

/-- The event of a completed payload: the six header registers and `BUF[0 .. size-1]` (R39, R131). -/
def doneEvent (s : State) : Event := .evDone s.hdr (Memory.readRange s.buf 0 s.hdr.size.toNat)

/-- Completion (R131). -/
def completePayload (s : State) : State :=
  emit (doneEvent s) none { s with phase := .done }

/-- The payload is still incomplete (R130). -/
def keepCollecting (s : State) : State := emit .evNone none { s with phase := .collect }

/-- `contribute(s)` (R130 to R133). A byte beyond address 65534 has nowhere to go (R50): that needs
`buf_len + remaining > 65535`, which R35 rules out (R59; log entry 9). -/
def contribute (bs : List Byte) (s : State) : Result :=
  if s.remaining.toNat < bs.length then
    .next (enterFailed .overDelivery (s.hdr.size.setWidth 32) s)
  else if bufBytes < s.bufLen.toNat + bs.length then
    .fault .noSuchBufferAddress
  else if s.remaining.toNat = bs.length then
    .next (completePayload (appendBytes bs s))
  else
    .next (keepCollecting (appendBytes bs s))

end Sys2Proof.Machine
end

