-- ==== Sys2Proof/Machine/Chunk.lean ====
section
/-! DEFINITION. The CHUNK operation (40_frame_synchronizer.md R100 to R112), its five rows, and the wire unit FRAME.HDR
(30_encoding.md R71, R74, R87). A row's constructor names the case the decoder read in the state; R100 selects the case
from the state, so in a state that selects another case the same CHUNK(`c`) is performed (log entry 5). -/

namespace Sys2Proof.Machine

/-- CHUNK.IGNORED: no effect, event EV_NONE (R101). -/
def chunkIgnored (s : State) : Result := .next (emit .evNone none s)

/-- CHUNK.SYNC: load the header, restart the buffer, contribute the initial slice (R105, R111, R139). -/
def chunkSync (h : HdrBytes) (slice : List Byte) (s : State) : Result :=
  contribute slice (loadHeader (extract s.params.protocolLowNibble h) s)

/-- CHUNK.MALFORMED: `raise MalformedHeader(i)` (R106; log entry 14). -/
def chunkMalformed (i : Nat) (s : State) : Result :=
  .next (enterFailed .malformedHeader (BitVec.ofNat 32 i) s)

/-- CHUNK.CONT: the whole chunk is a contribution (R107). -/
def chunkCont (c : List Byte) (s : State) : Result := contribute c s

/-- CHUNK.NOISE: the chunk is discarded, event EV_NONE (R108). -/
def chunkNoise (s : State) : Result := .next (emit .evNone none s)

/-- The effect of a case. -/
def performCase (k : ChunkCase) (c : List Byte) (s : State) : Result :=
  match k with
  | .ignored => chunkIgnored s
  | .sync h slice => chunkSync h slice s
  | .malformed i => chunkMalformed i s
  | .cont => chunkCont c s
  | .noise => chunkNoise s

/-- What happens to a chunk once its case is known, unless it is longer than CHUNK_MAX: then it is refused (R11, R100;
log entry 16). -/
def onChunk (c : List Byte) (s : State) (k : ChunkCase → Result) : Result :=
  if chunkFits s.params c then k (chunkCase s.phase s.hdrMatched c) else .refused .chunkTooLong

/-- CHUNK(`c`) (R100). -/
def performChunk (c : List Byte) (s : State) : Result := onChunk c s (fun k => performCase k c s)

/-- Row CHUNK.IGNORED (R101). -/
def execChunkIgnored (c : List Byte) (s : State) : Result :=
  onChunk c s fun
    | .ignored => chunkIgnored s
    | other => performCase other c s

/-- Row CHUNK.SYNC (R105). -/
def execChunkSync (c : List Byte) (s : State) : Result :=
  onChunk c s fun
    | .sync h slice => chunkSync h slice s
    | other => performCase other c s

/-- Row CHUNK.MALFORMED (R106). -/
def execChunkMalformed (c : List Byte) (s : State) : Result :=
  onChunk c s fun
    | .malformed i => chunkMalformed i s
    | other => performCase other c s

/-- Row CHUNK.CONT (R107). -/
def execChunkCont (c : List Byte) (s : State) : Result :=
  onChunk c s fun
    | .cont => chunkCont c s
    | other => performCase other c s

/-- Row CHUNK.NOISE (R108). -/
def execChunkNoise (c : List Byte) (s : State) : Result :=
  onChunk c s fun
    | .noise => chunkNoise s
    | other => performCase other c s

/-- Row FRAME.HDR: the wire unit arrives as one chunk (R71, R87, R105; log entry 6). -/
def execFrameHdr (h : Header) (slice : List Byte) (s : State) : Result :=
  performChunk (frameBytes s.params.protocolLowNibble h slice) s

end Sys2Proof.Machine
end

