-- ==== Sys2Proof/Machine/Readout.lean ====
section
/-! DEFINITION. The read operations (43_readout.md R170 to R173). They write no register and no buffer byte. -/

namespace Sys2Proof.Machine

/-- The record RDSTAT returns (R170). -/
def statusRecord (s : State) : StatusRecord where
  status := statusWord s.phase s.hdrMatched s.errCode
  remaining := s.remaining
  bufLen := s.bufLen
  errOffset := s.errOffset

/-- RDSTAT, in any phase (R170). -/
def execRdstat (s : State) : Result := .next (emit .evNone (some (.status (statusRecord s))) s)

/-- RDHDR, in any phase (R171). -/
def execRdhdr (s : State) : Result := .next (emit .evNone (some (.header s.hdr)) s)

/-- RDPAY(`a`): the payload byte number `a` inside the read window; refused outside it (R11, R172). -/
def execRdpay (a : Half) (s : State) : Result :=
  if inReadWindow s.phase s.bufLen a then
    .next (emit .evNone (some (.payload (Memory.read s.buf a.toNat))) s)
  else .refused .outsideReadWindow

end Sys2Proof.Machine
end

