-- ==== Sys2Proof/Machine/Session.lean ====
section
/-! DEFINITION. START and CANCEL (42_session_control.md R150 to R153). -/

namespace Sys2Proof.Machine

/-- START, in any phase (R150, R151). -/
def execStart (s : State) : Result := .next (openSession s)

/-- CANCEL: in HUNT and COLLECT the entry into TIMEOUT with the bytes accumulated so far (R152); in the inactive phases
no effect (R153). -/
def execCancel (s : State) : Result :=
  if isActive s.phase then .next (enterFailed .timeout (s.bufLen.setWidth 32) s)
  else .next (emit .evNone none s)

end Sys2Proof.Machine
end

