-- ==== Sys2Proof/Machine/Dispatch.lean ====
section
/-! DEFINITION. One arm for each constructor of Instr, each a direct call of that row's meaning. -/

namespace Sys2Proof.Machine

def exec (i : Instr) (s : State) : Host.Outcome State Fault Refusal :=
  match i with
  | .start => Sys2Proof.Machine.execStart s
  | .cancel => Sys2Proof.Machine.execCancel s
  | .chunkIgnored c => Sys2Proof.Machine.execChunkIgnored c s
  | .chunkSync c => Sys2Proof.Machine.execChunkSync c s
  | .chunkMalformed c => Sys2Proof.Machine.execChunkMalformed c s
  | .chunkCont c => Sys2Proof.Machine.execChunkCont c s
  | .chunkNoise c => Sys2Proof.Machine.execChunkNoise c s
  | .rdstat => Sys2Proof.Machine.execRdstat s
  | .rdhdr => Sys2Proof.Machine.execRdhdr s
  | .rdpay a => Sys2Proof.Machine.execRdpay a s
  | .frameHdr h slice => Sys2Proof.Machine.execFrameHdr h slice s

end Sys2Proof.Machine
end

