-- ==== Sys2Proof/Machine/Pins.lean ====
section
/-! DEFINITION. The decided pin binding (10_state.md R40 to R42, 30_encoding.md R83, 70_reset_and_hazards.md R220,
R234): what one clock cycle does, the output pins, and the staging state of R41 as views of the bytes accepted so far.
A cycle hands the operations it requests on as one request word, which the next steps perform in the order CANCEL,
START, CHUNK (log entry 10). Operations applied beside the pins leave the staging state alone (log entry 13). -/

namespace Sys2Proof.Machine

/-- The output pins (R40). `in_ready` is constant 1; S0 to S11 are parallel outputs. -/
def pinOutputs (s : State) : PinOut where
  inReady := true
  phase := phaseCode s.phase
  hdrMatched := s.hdrMatched
  protocol := s.hdr.protocol
  target := s.hdr.target
  targetMode := s.hdr.targetMode
  source := s.hdr.source
  cmd := s.hdr.cmd
  size := s.hdr.size
  remaining := s.remaining
  bufLen := s.bufLen
  errCode := errCodeBits s.errCode
  errOffset := s.errOffset
  evDone := s.evDone
  evErr := s.evErr
  rdData := s.rdData

/-- The byte that `rd_data` shows after `rd_addr` was sampled: `BUF[rd_addr]` inside the read window, a free value
outside it (R40, R172, U3). -/
def sampledByte (a : Half) (s : State) : Byte :=
  if inReadWindow s.phase s.bufLen a then Memory.read s.buf a.toNat else Config.rdDataFree s.draws

/-- `drop` after this cycle's pulses: set by a `start` or `cancel` pulse in a cycle after the one that accepted the
chunk's first byte (R42). -/
def dropAfterPulses (p : PinIn) (s : State) : Bool :=
  s.drop || ((p.start || p.cancel) && !s.staged.isEmpty)

/-- `commit = in_valid and in_last and not drop` (R83). -/
def commits (p : PinIn) (s : State) : Bool := p.inValid && p.inLast && !dropAfterPulses p s

/-- The request of a cycle: the vector `{cancel, start, commit}` and the chunk just completed (R42, R83). -/
def pinRequest (p : PinIn) (s : State) : PortWord :=
  .request (mkReq p.cancel p.start (commits p s)) (if commits p s then s.staged ++ [p.inData] else [])

/-- The bytes staged after this cycle: none once a last byte is accepted (R41, R42). -/
def stagedAfter (p : PinIn) (s : State) : List Byte :=
  if p.inValid then (if p.inLast then [] else s.staged ++ [p.inData]) else s.staged

/-- `drop` after this cycle: cleared at the chunk boundary (R41). -/
def dropAfter (p : PinIn) (s : State) : Bool :=
  if p.inValid && p.inLast then false else dropAfterPulses p s

/-- One rising edge with `rst` low: sample the pins, end the event pulses of the cycle before, put the request in
front of what the environment does next. -/
def clockEdge (p : PinIn) (s : State) : State :=
  { s with
    rdData := sampledByte p.rdAddr s
    draws := s.draws + 1
    evDone := false
    evErr := false
    staged := stagedAfter p s
    drop := dropAfter p s
    inputs := .port (pinRequest p s) :: s.inputs }

/-- One rising edge with `rst` high: reset has priority over every operation requested in the same cycle, RDPAY among
them (R220). -/
def resetEdge (s : State) : State :=
  { hardReset s with rdData := Config.rdDataFree s.draws, draws := s.draws + 1 }

/-- One clock cycle (R40, R42). -/
def pinCycle (p : PinIn) (s : State) : State := if p.rst then resetEdge s else clockEdge p s

/-- R41: the index of the current byte in its chunk. -/
def stagingIndex (s : State) : Nat := s.staged.length

/-- R41: the length of the current run of `0x7E` bytes. -/
def stagingRun (s : State) : Nat := (s.staged.reverse.takeWhile (fun b => decide (b = markerByte))).length

/-- R41: the header bytes seen so far after a marker. -/
def stagingHeader (s : State) : List Byte :=
  match findMarker s.staged with
  | none => []
  | some i => (s.staged.drop (i + markerLen)).take hdrLen

/-- R41: the tentative write address, where the next byte would go were it a payload byte of this chunk. -/
def stagingAddress (s : State) : Nat :=
  match contents s.staged with
  | .frame _ _ slice => slice.length
  | .shortHeader _ => 0
  | .noMarker => s.bufLen.toNat + s.staged.length

/-- The pins of a cycle that offers one byte of a chunk and nothing else. -/
def byteCycle (b : Byte) (last : Bool) : PinIn :=
  { rst := false, inValid := true, inData := b, inLast := last, start := false, cancel := false, rdAddr := 0#16 }

/-- The cycles that spell a chunk at the pins, one byte a cycle (R42, R234); a chunk of length 0 has no spelling. -/
def chunkCycles : List Byte → List Stimulus
  | [] => []
  | b :: c => .cycle (byteCycle b c.isEmpty) :: chunkCycles c

end Sys2Proof.Machine
end

