-- ==== Sys2Proof/Machine/Fetch.lean ====
section
/-! DEFINITION. What a step finds to do: the next stimulus of the environment, decoded (00_scope.md R6, R7;
30_encoding.md R83; 70_reset_and_hazards.md R220). The block fetches no instructions of its own (R37). -/

namespace Sys2Proof.Machine

/-- The sequencing state and the parameters, as the decoder reads them (R37, R38). -/
def decodeContext (s : State) : DecodeContext :=
  { params := s.params, phase := s.phase, hdrMatched := s.hdrMatched }

/-- What the next step does. -/
inductive Fetched
  /-- No operation is applied: the block does nothing of its own (R7, R154). -/
  | idle
  /-- The state changes without an operation: a reset, a clock edge, a request vector `0b000`. -/
  | moved (t : State)
  /-- The operation `i` is performed in the state `t`, in which its request has been taken. -/
  | perform (i : Instr) (t : State)
  /-- The word is outside what the spec gives a meaning (R11). -/
  | stop (r : Refusal)
deriving DecidableEq, Repr

/-- What is left of a request goes back in front of the stimuli that follow (R83: performed in order). -/
def putBack (rest : Option PortWord) (more : List Stimulus) : List Stimulus :=
  match rest with
  | none => more
  | some w => .port w :: more

/-- The word at the ports, decoded. Of the decoder's rejections only `req = 0b000` is a legal word: no operation
(R83). The frame decoder's own two rejections do not leave `decode`. -/
def fetchWord (w : PortWord) (s : State) : Fetched :=
  match decode (decodeContext s) w with
  | .ok (i, rest) => .perform i { s with inputs := putBack rest s.inputs }
  | .error .noOperation => .moved s
  | .error .chunkTooLong => .stop .chunkTooLong
  | .error .noMarker => .moved s
  | .error .shortHeader => .moved s

/-- The next stimulus. -/
def fetch (s : State) : Fetched :=
  match s.inputs with
  | [] => .idle
  | .reset :: more => .moved (hardReset { s with inputs := more })
  | .cycle p :: more => .moved (pinCycle p { s with inputs := more })
  | .port w :: more => fetchWord w { s with inputs := more }

end Sys2Proof.Machine
end

