-- ==== Sys2Proof/Machine/Step.lean ====
section
/-! DEFINITION. One step: the next stimulus of the environment is taken and, where it requests an operation, the
operation is performed to its end (00_scope.md R6; 42_session_control.md R154). -/

namespace Sys2Proof.Machine

/-- One step. -/
def step (s : State) : Host.Outcome State Fault Refusal :=
  match fetch s with
  | .idle => .next s
  | .moved t => .next t
  | .perform i t => exec i t
  | .stop r => .refused r

/-- `s` with a table row's bits at the ports as the next thing the environment applies (log entry 1). -/
def State.withFetchWord (s : State) (nbits w : Nat) : State :=
  { s with inputs := .port (tableWord nbits w) :: s.inputs }

end Sys2Proof.Machine
end

