-- ==== Sys2Proof/Machine/Text.lean ====
section
/-! DEFINITION. The textual notation of operation sequences (30_encoding.md R86, R87): one operation a line, a comment
from `;` to the end of the line, and the pseudo-operations `MARK`, `HDR`, `FRAME` and `xx*N`. `RESET` is the hardware
reset of 95_test_vectors.md. A line is assembled to what the environment applies (log entry 17). -/

namespace Sys2Proof.Machine

/-- A word (letters and digits) or one sign. -/
inductive Token
  | word (w : List Char)
  | sign (c : Char)
deriving DecidableEq, Repr

/-- Why a line is no line of the notation. -/
inductive TextError
  | noSuchOperation
  | badByte
  | badNumber
  | badArguments
  | outOfRange
  | extraText
deriving DecidableEq, Repr

/-- A letter or a digit. -/
def isWordChar (c : Char) : Bool := c.isAlphanum

/-- White space between tokens. -/
def isBlank (c : Char) : Bool := c == ' ' || c == '\t' || c == '\r'

/-- Put a finished word in front of the tokens that follow it. -/
def pushWord (w : List Char) (ts : List Token) : List Token := if w.isEmpty then ts else .word w.reverse :: ts

/-- The tokens of a line up to its comment; `w` is the word being read, last character first. -/
def lexLine : List Char → List Char → List Token
  | w, [] => pushWord w []
  | w, c :: cs =>
    if c == ';' then pushWord w []
    else if isWordChar c then lexLine (c :: w) cs
    else if isBlank c then pushWord w (lexLine [] cs)
    else pushWord w (.sign c :: lexLine [] cs)

/-- The value of a hexadecimal digit, in either case. -/
def hexValue (c : Char) : Option Nat :=
  if 48 ≤ c.toNat ∧ c.toNat ≤ 57 then some (c.toNat - 48)
  else if 65 ≤ c.toNat ∧ c.toNat ≤ 70 then some (c.toNat - 55)
  else if 97 ≤ c.toNat ∧ c.toNat ≤ 102 then some (c.toNat - 87)
  else none

/-- Digits in a base, read left to right after a value. -/
def digitsValue (base acc : Nat) : List Char → Option Nat
  | [] => some acc
  | c :: cs =>
    match hexValue c with
    | some d => if d < base then digitsValue base (acc * base + d) cs else none
    | none => none

/-- A number: hexadecimal with `0x`, else decimal (R86). -/
def numberOf : List Char → Option Nat
  | [] => none
  | '0' :: 'x' :: ds => if ds.isEmpty then none else digitsValue 16 0 ds
  | d :: ds => digitsValue 10 0 (d :: ds)

/-- A byte: two hexadecimal digits (R86). -/
def byteOf : List Char → Option Byte
  | [a, b] =>
    match hexValue a, hexValue b with
    | some x, some y => some (BitVec.ofNat 8 (16 * x + y))
    | _, _ => none
  | _ => none

/-- Numbers separated by commas, up to the sign that ends them; the tokens after that sign. -/
def numbersUntil (stop : Char) : List Token → Option (List Nat × List Token)
  | .word w :: .sign c :: ts =>
    match numberOf w with
    | none => none
    | some n =>
      if c == stop then some ([n], ts)
      else if c == ',' then (numbersUntil stop ts).map (fun r => (n :: r.1, r.2))
      else none
  | _ => none

/-- The header of six numbers, where each is in its field's range (R88). -/
def headerOf (p t m s c z : Nat) : Except TextError Header :=
  if p < 16 ∧ t < 4096 ∧ m < 16 ∧ s < 4096 ∧ c < 256 ∧ z < 65536 then
    .ok { protocol := BitVec.ofNat 4 p, target := BitVec.ofNat 12 t, targetMode := BitVec.ofNat 4 m,
          source := BitVec.ofNat 12 s, cmd := BitVec.ofNat 8 c, size := BitVec.ofNat 16 z }
  else .error .outOfRange

/-- A byte list with its macros (R87), up to a `)` or the end of the line; `fuel` bounds the number of items. -/
def byteItems (low : Bool) : Nat → List Token → Except TextError (List Byte × List Token)
  | 0, ts => .ok ([], ts)
  | _ + 1, [] => .ok ([], [])
  | _ + 1, .sign c :: ts => .ok ([], .sign c :: ts)
  | fuel + 1, .word w :: ts =>
    if w = "MARK".toList then (byteItems low fuel ts).map (fun r => (mark ++ r.1, r.2))
    else if w = "HDR".toList then
      match ts with
      | .sign '(' :: args =>
        match numbersUntil ')' args with
        | some ([p, t, m, s, c, z], more) =>
          match headerOf p t m s c z with
          | .ok h => (byteItems low fuel more).map (fun r => (hdrList (hdrBytes low h) ++ r.1, r.2))
          | .error e => .error e
        | _ => .error .badArguments
      | _ => .error .badArguments
    else
      match byteOf w with
      | none => .error .badByte
      | some b =>
        match ts with
        | .sign '*' :: .word n :: more =>
          match numberOf n with
          | some k => (byteItems low fuel more).map (fun r => (List.replicate k b ++ r.1, r.2))
          | none => .error .badNumber
        | _ => (byteItems low fuel ts).map (fun r => (b :: r.1, r.2))

/-- `FRAME(p, t, m, s, c : b0 b1 ... bn-1)`: a whole frame in one chunk, its size the number of bytes given (R87). -/
def frameItem (low : Bool) (ts : List Token) : Except TextError (List Byte) :=
  match ts with
  | .sign '(' :: args =>
    match numbersUntil ':' args with
    | some ([p, t, m, s, c], more) =>
      match byteItems low more.length more with
      | .ok (bs, [.sign ')']) =>
        match headerOf p t m s c bs.length with
        | .ok h => .ok (frameBytes low h bs)
        | .error e => .error e
      | .ok _ => .error .badArguments
      | .error e => .error e
    | _ => .error .badArguments
  | _ => .error .badArguments

/-- One line's tokens: nothing on an empty line, else what the environment applies (R86). -/
def assembleTokens (low : Bool) : List Token → Except TextError (Option Stimulus)
  | [] => .ok none
  | .sign _ :: _ => .error .noSuchOperation
  | .word w :: ts =>
    if w = "CHUNK".toList then
      match byteItems low ts.length ts with
      | .ok (bs, []) => .ok (some (.port (.request 0b001#3 bs)))
      | .ok _ => .error .extraText
      | .error e => .error e
    else if w = "FRAME".toList then (frameItem low ts).map (fun bs => some (.port (.request 0b001#3 bs)))
    else if w = "RDPAY".toList then
      match ts with
      | [.word a] =>
        match numberOf a with
        | some n => if n < 65536 then .ok (some (.port (.readAddress (BitVec.ofNat 16 n)))) else .error .outOfRange
        | none => .error .badNumber
      | _ => .error .badArguments
    else if !ts.isEmpty then .error .extraText
    else if w = "START".toList then .ok (some (.port (.request 0b010#3 [])))
    else if w = "CANCEL".toList then .ok (some (.port (.request 0b100#3 [])))
    else if w = "RDSTAT".toList then .ok (some (.port .sampleStatus))
    else if w = "RDHDR".toList then .ok (some (.port .sampleHeader))
    else if w = "RESET".toList then .ok (some .reset)
    else .error .noSuchOperation

/-- One line of text (R86). -/
def assembleLine (low : Bool) (line : List Char) : Except TextError (Option Stimulus) :=
  assembleTokens low (lexLine [] line)

/-- The lines of a text; `w` is the line being read, last character first. -/
def linesOf : List Char → List Char → List (List Char)
  | w, [] => [w.reverse]
  | w, c :: cs => if c == '\n' then w.reverse :: linesOf [] cs else linesOf (c :: w) cs

/-- Lines one after the other. -/
def assembleLines (low : Bool) : List (List Char) → Except TextError (List Stimulus)
  | [] => .ok []
  | l :: ls =>
    match assembleLine low l, assembleLines low ls with
    | .ok (some x), .ok xs => .ok (x :: xs)
    | .ok none, .ok xs => .ok xs
    | .error e, _ => .error e
    | _, .error e => .error e

/-- A program of the notation as the stimuli it applies, first line first (R86). -/
def assemble (low : Bool) (text : List Char) : Except TextError (List Stimulus) := assembleLines low (linesOf [] text)

end Sys2Proof.Machine
end

