-- ==== Sys2Proof/Safety.lean ====
section
/-! DEFINITION. The words claims are stated in: the invariants of 10_state.md R35 (with R22, R33, R191) and of the
buffer (R31, R58), what the outputs say of the state (R174), and what a sequence of operations shows its issuers
(42_session_control.md R154, R155). -/

namespace Sys2Proof.Machine

/-- Every register S2 to S11 is 0 (R35). -/
abbrev RegistersZero (b : Block) : Prop :=
  b.hdr = zeroHeader ∧ b.remaining = 0#16 ∧ b.bufLen = 0#16 ∧ b.errCode = .none ∧ b.errOffset = 0#32

/-- R35, phase by phase. -/
abbrev RegistersInv (b : Block) : Prop :=
  (b.phase = .idle → b.hdrMatched = false ∧ RegistersZero b) ∧
  (b.phase = .hunt → b.hdrMatched = false ∧ RegistersZero b) ∧
  (b.phase = .collect → b.hdrMatched = true ∧ b.errCode = .none ∧ b.errOffset = 0#32 ∧ 1 ≤ b.remaining.toNat ∧
    b.remaining.toNat ≤ b.hdr.size.toNat ∧ b.bufLen.toNat + b.remaining.toNat = b.hdr.size.toNat) ∧
  (b.phase = .done → b.hdrMatched = true ∧ b.errCode = .none ∧ b.errOffset = 0#32 ∧ b.remaining = 0#16 ∧
    b.bufLen = b.hdr.size) ∧
  (b.phase = .failed → b.errCode ≠ .none ∧
    (b.hdrMatched = true → b.bufLen.toNat + b.remaining.toNat = b.hdr.size.toNat) ∧
    (b.hdrMatched = false → b.hdr = zeroHeader ∧ b.bufLen = 0#16 ∧ b.remaining = 0#16))

/-- What `err_offset` records (R33, R191), and that an over-delivery has a header (43_readout.md, V6). -/
abbrev ErrorInv (b : Block) : Prop :=
  (b.errCode = .none → b.errOffset = 0#32) ∧
  (b.errCode = .overDelivery → b.hdrMatched = true ∧ b.errOffset = b.hdr.size.setWidth 32) ∧
  (b.errCode = .timeout → b.errOffset = b.bufLen.setWidth 32)

/-- The buffer is in canonical form (R50, R58) and holds a written byte at every address below `buf_len` (R30, R52). -/
abbrev BufferInv (b : Block) : Prop :=
  Memory.wf b.buf = true ∧ ∀ a < b.bufLen.toNat, (Memory.lookup b.buf a).isSome = true

/-- What an event said still stands in the registers and the buffer (R39, R174). -/
abbrev OutputInv (s : State) : Prop :=
  match s.out.event with
  | .evNone => True
  | .evDone h payload => s.phase = .done ∧ h = s.hdr ∧ payload = Memory.readRange s.buf 0 s.hdr.size.toNat
  | .evErr e o => s.phase = .failed ∧ e = s.errCode ∧ o = s.errOffset

/-- The invariant of the machine. -/
def State.Inv (s : State) : Prop :=
  RegistersInv s.toBlock ∧ ErrorInv s.toBlock ∧ BufferInv s.toBlock ∧ OutputInv s

/-- Every register S0 to S11 of `t` is that of `s`. -/
abbrev SameRegisters (s t : State) : Prop :=
  t.phase = s.phase ∧ t.hdrMatched = s.hdrMatched ∧ t.hdr = s.hdr ∧ t.remaining = s.remaining ∧ t.bufLen = s.bufLen ∧
  t.errCode = s.errCode ∧ t.errOffset = s.errOffset

/-- Every byte of `BUF` (S12) reads in `t` as in `s`. -/
abbrev SameBytes (s t : State) : Prop := ∀ a, Memory.read t.buf a = Memory.read s.buf a

/-- What no operation touches: the parameters, the pin level's staging state and read port, the stimuli to come. -/
abbrev SamePorts (s t : State) : Prop :=
  t.params = s.params ∧ t.rdData = s.rdData ∧ t.staged = s.staged ∧ t.drop = s.drop ∧ t.draws = s.draws ∧
  t.inputs = s.inputs

/-- The operation that led from `s` to `t` emitted this event and returned this result (R10, R39, R40). -/
abbrev Emitted (ev : Event) (res : Option ReadResult) (s t : State) : Prop :=
  t.out = { event := ev, result := res } ∧ t.evDone = (s.evDone || ev.isDone) ∧ t.evErr = (s.evErr || ev.isErr)

/-- The bytes of `bs` stand in `t` at `buf_len` of `s` on; every other byte reads as before (R52, R55). -/
abbrev Appended (bs : List Byte) (s t : State) : Prop :=
  (∀ k b, bs[k]? = some b → Memory.read t.buf (s.bufLen.toNat + k) = b) ∧
  (∀ a, a < s.bufLen.toNat ∨ s.bufLen.toNat + bs.length ≤ a → Memory.read t.buf a = Memory.read s.buf a)

/-- What a contribution of `bs` does to the state `u` current inside the operation (R130 to R133): over-delivery,
payload still incomplete, payload complete. -/
abbrev ContributionEffect (bs : List Byte) (u t : State) : Prop :=
  t.hdrMatched = u.hdrMatched ∧ t.hdr = u.hdr ∧ SamePorts u t ∧
  (u.remaining.toNat < bs.length →
    t.phase = .failed ∧ t.errCode = .overDelivery ∧ t.errOffset = u.hdr.size.setWidth 32 ∧ t.remaining = u.remaining ∧
    t.bufLen = u.bufLen ∧ SameBytes u t ∧ Emitted (.evErr .overDelivery (u.hdr.size.setWidth 32)) none u t) ∧
  (bs.length < u.remaining.toNat →
    t.phase = .collect ∧ t.errCode = u.errCode ∧ t.errOffset = u.errOffset ∧
    t.remaining.toNat = u.remaining.toNat - bs.length ∧ t.bufLen.toNat = u.bufLen.toNat + bs.length ∧
    Appended bs u t ∧ Emitted .evNone none u t) ∧
  (bs.length = u.remaining.toNat →
    t.phase = .done ∧ t.errCode = u.errCode ∧ t.errOffset = u.errOffset ∧ t.remaining = 0#16 ∧
    t.bufLen = u.hdr.size ∧ Appended bs u t ∧
    Emitted (.evDone u.hdr (Memory.readRange t.buf 0 u.hdr.size.toNat)) none u t)

/-- The operation CHUNK(`c`) as the decoder reads it in `s` (R82, R100). -/
def chunkInstr (s : State) (c : List Byte) : Instr := selectRow (decodeContext s) c

/-- What a sequence of operations shows its issuers: each operation's outputs, up to and with the first stop. -/
def observe : List Instr → State → List (Host.Outcome Output Fault Refusal)
  | [], _ => []
  | i :: more, s =>
    match exec i s with
    | .next t => .next t.out :: observe more t
    | .fault f => [.fault f]
    | .refused r => [.refused r]

/-- The events other than EV_NONE that a sequence of operations emits, in order (R39, R155). -/
def eventsOf : List Instr → State → List Event
  | [], _ => []
  | i :: more, s =>
    match exec i s with
    | .next t => (if t.out.event = .evNone then [] else [t.out.event]) ++ eventsOf more t
    | .fault _ => []
    | .refused _ => []

/-- Operations one after the other, up to the first stop. -/
def runAll : List Instr → State → Result
  | [], s => .next s
  | i :: more, s =>
    match exec i s with
    | .next t => runAll more t
    | .fault f => .fault f
    | .refused r => .refused r

/-- Contributions one after the other, up to the first stop (41_payload_reassembler.md R136). -/
def contributeAll : List (List Byte) → State → Result
  | [], s => .next s
  | p :: more, s =>
    match contribute p s with
    | .next t => contributeAll more t
    | .fault f => .fault f
    | .refused r => .refused r

/-- Operations CHUNK one after the other, up to the first stop. -/
def chunkAll : List (List Byte) → State → Result
  | [], s => .next s
  | c :: more, s =>
    match exec (chunkInstr s c) s with
    | .next t => chunkAll more t
    | .fault f => .fault f
    | .refused r => .refused r

/-- Operations, then CHUNK(`c`) as the decoder reads it in the state they leave. -/
def chunkAfter : List Instr → List Byte → State → Result
  | [], c, s => exec (chunkInstr s c) s
  | i :: more, c, s =>
    match exec i s with
    | .next t => chunkAfter more c t
    | .fault f => .fault f
    | .refused r => .refused r

end Sys2Proof.Machine
end

