-- ==== Sys2Proof/Certificates/Slice0/Obligations.lean ====
section
/-! DEFINITION. The statements for the provers. Each docstring names the rule of spec/ it formalises. Where a clause
rests on a choice of the model the docstring says so and names the log entry. One frame is the same throughout and is
claimed of no rule: `Emitted` speaks of the model's field `out` (log entry 2) and of the event pins (log entry 19),
`SamePorts` of the pin level's and the model's own fields (log entry 13). -/

open Sys2Proof Sys2Proof.Machine

/-! ## START and CANCEL -/

/-- START in any phase (R150; in an active phase R151; the spec's decision D16): every register at its initial value,
phase HUNT, no event. Its frame over the buffer is OnlyChunkWritesTheBuffer. -/
def Obligations.StartOpensFreshSession : Prop :=
  ∀ s : State, ∃ t, exec .start s = .next t ∧
    t.phase = .hunt ∧ t.hdrMatched = false ∧ t.hdr.protocol = 0#4 ∧ t.hdr.target = 0#12 ∧ t.hdr.targetMode = 0#4 ∧
    t.hdr.source = 0#12 ∧ t.hdr.cmd = 0#8 ∧ t.hdr.size = 0#16 ∧ t.remaining = 0#16 ∧ t.bufLen = 0#16 ∧
    t.errCode = .none ∧ t.errOffset = 0#32 ∧ Emitted .evNone none s t ∧ SamePorts s t

/-- CANCEL in an active phase (R152, D15): the entry into TIMEOUT. -/
def Obligations.CancelFailsActiveSession : Prop :=
  ∀ s : State, s.phase = .hunt ∨ s.phase = .collect → ∃ t, exec .cancel s = .next t ∧
    t.phase = .failed ∧ t.errCode = .timeout ∧ t.errOffset = s.bufLen.setWidth 32 ∧ t.hdrMatched = s.hdrMatched ∧
    t.hdr = s.hdr ∧ t.remaining = s.remaining ∧ t.bufLen = s.bufLen ∧
    Emitted (.evErr .timeout (s.bufLen.setWidth 32)) none s t ∧ SameBytes s t ∧ SamePorts s t

/-- CANCEL in an inactive phase (R153, D15): no effect. -/
def Obligations.CancelKeepsOutcome : Prop :=
  ∀ s : State, s.phase = .idle ∨ s.phase = .done ∨ s.phase = .failed → ∃ t, exec .cancel s = .next t ∧
    SameRegisters s t ∧ Emitted .evNone none s t ∧ SameBytes s t ∧ SamePorts s t

/-- Only CHUNK writes the buffer (R50; R44's rows START, CANCEL and the reads). That START leaves the old bytes where
they stand is the reading of log entry 7: U2 lets a model leave them or not. -/
def Obligations.OnlyChunkWritesTheBuffer : Prop :=
  ∀ (s t : State) (i : Instr), i = .start ∨ i = .cancel ∨ i = .rdstat ∨ i = .rdhdr ∨ (∃ a, i = .rdpay a) →
    exec i s = .next t → t.buf = s.buf

/-! ## CHUNK -/

/-- `find_marker` (R102, D6): the least index at which the four marker bytes lie inside the chunk; NONE when there is
no such index. -/
def Obligations.FindMarkerIsLeastOccurrence : Prop :=
  ∀ bytes : List Byte,
    (∀ i, findMarker bytes = some i ↔
      ((∀ k < 4, bytes[i + k]? = some 0x7E#8) ∧ ∀ j < i, ¬ ∀ k < 4, bytes[j + k]? = some 0x7E#8)) ∧
    (findMarker bytes = none ↔ ∀ i, ¬ ∀ k < 4, bytes[i + k]? = some 0x7E#8)

/-- CHUNK.IGNORED (R101, D9). -/
def Obligations.ChunkIgnoredChangesNothing : Prop :=
  ∀ (s : State) (c : List Byte), s.phase = .idle ∨ s.phase = .done ∨ s.phase = .failed →
    c.length ≤ s.params.chunkMax.toNat → ∃ t, exec (.chunkIgnored c) s = .next t ∧
      SameRegisters s t ∧ Emitted .evNone none s t ∧ SameBytes s t ∧ SamePorts s t

/-- CHUNK.SYNC (R105, D32) and the initial load of the counter (R139): the header is loaded from the seven bytes after
the marker, the buffer restarts, and the slice is contributed with the registers just assigned. -/
def Obligations.ChunkSyncLoadsHeaderAndContributes : Prop :=
  ∀ (s : State) (c : List Byte) (i : Nat) (h : HdrBytes) (slice : List Byte),
    s.phase = .hunt ∨ s.phase = .collect → c.length ≤ s.params.chunkMax.toNat →
    findMarker c = some i → c.drop (i + 4) = hdrList h ++ slice →
    ∃ t, exec (.chunkSync c) s = .next t ∧
      ContributionEffect slice
        { s with hdrMatched := true, bufLen := 0#16, hdr := extract s.params.protocolLowNibble h,
                 remaining := (extract s.params.protocolLowNibble h).size } t

/-- CHUNK.MALFORMED (R106, D32): fewer than 7 bytes follow the marker. -/
def Obligations.ChunkMalformedFails : Prop :=
  ∀ (s : State) (c : List Byte) (i : Nat), s.phase = .hunt ∨ s.phase = .collect →
    c.length ≤ s.params.chunkMax.toNat → findMarker c = some i → c.length < i + 11 →
    ∃ t, exec (.chunkMalformed c) s = .next t ∧
      t.phase = .failed ∧ t.errCode = .malformedHeader ∧ t.errOffset.toNat = i ∧ t.hdrMatched = s.hdrMatched ∧
      t.hdr = s.hdr ∧ t.remaining = s.remaining ∧ t.bufLen = s.bufLen ∧
      Emitted (.evErr .malformedHeader t.errOffset) none s t ∧ SameBytes s t ∧ SamePorts s t

/-- CHUNK.CONT (R107): the entire chunk is a contribution. `hdr_matched` and the sum of the counters are what R35
gives in COLLECT. -/
def Obligations.ChunkContContributesWholeChunk : Prop :=
  ∀ (s : State) (c : List Byte), s.phase = .collect → s.hdrMatched = true →
    s.bufLen.toNat + s.remaining.toNat = s.hdr.size.toNat → c.length ≤ s.params.chunkMax.toNat →
    findMarker c = none →
    ∃ t, exec (.chunkCont c) s = .next t ∧ ContributionEffect c s t

/-- CHUNK.NOISE (R108): discarded. In HUNT `hdr_matched` is 0 (R35). -/
def Obligations.ChunkNoiseChangesNothing : Prop :=
  ∀ (s : State) (c : List Byte), s.phase = .hunt → s.hdrMatched = false →
    c.length ≤ s.params.chunkMax.toNat → findMarker c = none →
    ∃ t, exec (.chunkNoise c) s = .next t ∧
      SameRegisters s t ∧ Emitted .evNone none s t ∧ SameBytes s t ∧ SamePorts s t

/-- The wire unit FRAME.HDR as one chunk (R71, R87, R101, R105; that the row's effect is this CHUNK is the model's
reading, log entry 6): in an active phase exactly its six fields are loaded, for both values of
`PROTOCOL_LOW_NIBBLE`, and its slice is contributed; in an inactive phase nothing changes. -/
def Obligations.FrameHdrIsReceived : Prop :=
  ∀ (s : State) (h : Header) (slice : List Byte), 11 + slice.length ≤ s.params.chunkMax.toNat →
    ∃ t, exec (.frameHdr h slice) s = .next t ∧
      (s.phase = .hunt ∨ s.phase = .collect →
        ContributionEffect slice { s with hdrMatched := true, bufLen := 0#16, hdr := h, remaining := h.size } t) ∧
      (s.phase = .idle ∨ s.phase = .done ∨ s.phase = .failed →
        SameRegisters s t ∧ Emitted .evNone none s t ∧ SameBytes s t ∧ SamePorts s t)

/-- The five CHUNK rows are one operation (R82, R100): executed in any state, each of the five constructors has the
effect of the case that the state and the contents select (log entry 5). -/
def Obligations.ChunkRowsAreOneOperation : Prop :=
  ∀ (s : State) (c : List Byte),
    exec (.chunkIgnored c) s = exec (chunkInstr s c) s ∧ exec (.chunkSync c) s = exec (chunkInstr s c) s ∧
    exec (.chunkMalformed c) s = exec (chunkInstr s c) s ∧ exec (.chunkCont c) s = exec (chunkInstr s c) s ∧
    exec (.chunkNoise c) s = exec (chunkInstr s c) s

/-- A chunk longer than CHUNK_MAX is refused (R11, R100, U4), in every phase (the model's reading, log entry 16). -/
def Obligations.TooLongChunkIsRefused : Prop :=
  ∀ (s : State) (c : List Byte), s.params.chunkMax.toNat < c.length →
    exec (.chunkIgnored c) s = .refused .chunkTooLong ∧ exec (.chunkSync c) s = .refused .chunkTooLong ∧
    exec (.chunkMalformed c) s = .refused .chunkTooLong ∧ exec (.chunkCont c) s = .refused .chunkTooLong ∧
    exec (.chunkNoise c) s = .refused .chunkTooLong ∧
    ∀ (h : Header) (slice : List Byte), s.params.chunkMax.toNat < 11 + slice.length →
      exec (.frameHdr h slice) s = .refused .chunkTooLong

/-- The search is confined to one chunk (R103): of two chunks that hold a marker only where they meet, neither is seen
to hold one; in HUNT both are noise, in COLLECT both are continuation. -/
def Obligations.MarkerCutByChunkBoundaryIsUnseen : Prop :=
  ∀ (s : State) (c d : List Byte), findMarker c = none → findMarker d = none → findMarker (c ++ d) ≠ none →
    c.length ≤ s.params.chunkMax.toNat → d.length ≤ s.params.chunkMax.toNat → s.Inv →
    (s.phase = .hunt → ∃ t, chunkAll [c, d] s = .next t ∧ SameRegisters s t ∧ SameBytes s t ∧ t.out.event = .evNone) ∧
    (s.phase = .collect → exec (chunkInstr s c) s = contribute c s ∧
      ∀ t, contribute c s = .next t → t.phase = .collect → exec (chunkInstr t d) t = contribute d t)

/-- A run longer than four (R110): the fifth `0x7E` is the header byte `h[0]`; under the default layout it gives
`protocol` = 0xE and `target[3:0]` = 0x7. -/
def Obligations.FifthMarkerByteIsHeader : Prop :=
  ∀ (s t : State) (bytes : List Byte) (i : Nat), s.phase = .hunt ∨ s.phase = .collect →
    s.params.protocolLowNibble = true → findMarker bytes = some i → bytes[i + 4]? = some 0x7E#8 →
    i + 11 ≤ bytes.length → exec (.chunkSync bytes) s = .next t → t.hdr.protocol = 0xE#4 ∧ t.hdr.target.extractLsb' 0 4 = 0x7#4

/-- The empty chunk changes nothing in any phase (R109). -/
def Obligations.EmptyChunkChangesNothing : Prop :=
  ∀ s : State, s.Inv → ∃ t, exec (chunkInstr s []) s = .next t ∧
    SameRegisters s t ∧ Emitted .evNone none s t ∧ SameBytes s t ∧ SamePorts s t

/-- Re-synchronisation (R111, D7): a complete frame found in COLLECT leaves the registers, the accumulated bytes and the
event it would have left in a session just opened; nothing of the frame in progress survives. Derived from R111, R105 and
R150: R111 itself makes no comparison with START. -/
def Obligations.ResynchronisationStartsAfresh : Prop :=
  ∀ (s u t : State) (c : List Byte) (i : Nat), s.Inv → s.phase = .collect → findMarker c = some i →
    i + 11 ≤ c.length → exec .start s = .next u → exec (.chunkSync c) s = .next t →
    ∃ t', exec (.chunkSync c) u = .next t' ∧ SameRegisters t t' ∧ t'.out = t.out ∧
      ∀ a < t.bufLen.toNat, Memory.read t'.buf a = Memory.read t.buf a

/-! ## The reassembler -/

/-- `contribute(s)` (R130), on the states in which R130 invokes it. -/
def Obligations.ContributeFollowsItsProcedure : Prop :=
  ∀ (s : State) (bs : List Byte), s.hdrMatched = true → s.bufLen.toNat + s.remaining.toNat = s.hdr.size.toNat →
    ∃ t, contribute bs s = .next t ∧ ContributionEffect bs s t

/-- Split-invariance of `contribute` (R136): whatever the split, the same state as the one unsplit contribution, the
phase COLLECT after each piece but the last, DONE with the whole payload at the last. -/
def Obligations.ContributeIsSplitInvariant : Prop :=
  ∀ (s : State) (pieces : List (List Byte)) (last : List Byte), s.hdrMatched = true →
    s.bufLen = 0#16 → s.remaining = s.hdr.size → (pieces ++ [last]).flatten.length = s.hdr.size.toNat →
    (pieces ≠ [] → last ≠ []) →
    contributeAll (pieces ++ [last]) s = contribute (pieces ++ [last]).flatten s ∧
    (∀ k, 0 < k → k ≤ pieces.length →
      ∃ t, contributeAll (pieces.take k) s = .next t ∧ t.phase = .collect ∧ t.out.event = .evNone) ∧
    ∃ t, contributeAll (pieces ++ [last]) s = .next t ∧ t.phase = .done ∧ t.bufLen = s.hdr.size ∧
      t.remaining = 0#16 ∧ t.out.event = .evDone s.hdr (pieces ++ [last]).flatten ∧
      ∀ k b, (pieces ++ [last]).flatten[k]? = some b → Memory.read t.buf k = b

/-- Split-invariance of the block (R136, R104, R106): a frame whose marker and header lie in one chunk, its payload
cut anywhere into continuation chunks that hold no marker, ends in the same state as the frame in one chunk. -/
def Obligations.BlockIsSplitInvariant : Prop :=
  ∀ (s : State) (h : Header) (first : List Byte) (pieces : List (List Byte)) (last : List Byte),
    s.Inv → s.phase = .hunt ∨ s.phase = .collect →
    11 + h.size.toNat ≤ s.params.chunkMax.toNat →
    first.length + (pieces ++ [last]).flatten.length = h.size.toNat → last ≠ [] →
    (∀ p ∈ pieces ++ [last], findMarker p = none) →
    chunkAll (frameBytes s.params.protocolLowNibble h first :: (pieces ++ [last])) s =
      chunkAll [frameBytes s.params.protocolLowNibble h (first ++ (pieces ++ [last]).flatten)] s

/-- Bytes after a completed payload (R134): in a later chunk they are ignored, in the same chunk as payload bytes they
are an over-delivery. -/
def Obligations.ExcessBytesDependOnChunking : Prop :=
  ∀ (s : State) (c d : List Byte), s.Inv → s.phase = .collect → c.length = s.remaining.toNat → d ≠ [] →
    findMarker (c ++ d) = none → findMarker c = none → (c ++ d).length ≤ s.params.chunkMax.toNat →
    (∃ t u, exec (chunkInstr s c) s = .next t ∧ t.phase = .done ∧ exec (chunkInstr t d) t = .next u ∧
      SameRegisters t u ∧ u.out.event = .evNone) ∧
    ∃ t, exec (chunkInstr s (c ++ d)) s = .next t ∧ t.phase = .failed ∧ t.errCode = .overDelivery ∧
      t.remaining = s.remaining ∧ t.bufLen = s.bufLen

/-- Monotonicity between header loads (R135): no operation but START and a chunk with marker and whole header shrinks
`buf_len`, grows `remaining`, or changes a byte below `buf_len`. -/
def Obligations.AccumulatorIsMonotonic : Prop :=
  ∀ (s t : State) (i : Instr), s.Inv → exec i s = .next t → i ≠ .start →
    (∀ c, i ∈ [.chunkIgnored c, .chunkSync c, .chunkMalformed c, .chunkCont c, .chunkNoise c] →
      ∀ k, findMarker c = some k → c.length < k + 11) →
    (∀ h slice, i ≠ .frameHdr h slice) →
    s.bufLen.toNat ≤ t.bufLen.toNat ∧ t.remaining.toNat ≤ s.remaining.toNat ∧
    ∀ a < s.bufLen.toNat, Memory.read t.buf a = Memory.read s.buf a

/-- The largest frame (R141): 65535 bytes fill addresses 0 to 65534; one byte more is an over-delivery. -/
def Obligations.LargestFrameFillsTheBuffer : Prop :=
  ∀ (s : State) (bs : List Byte), s.hdr.size = 0xFFFF#16 → s.remaining = 0xFFFF#16 → s.bufLen = 0#16 →
    (bs.length = 65535 → ∃ t, contribute bs s = .next t ∧ t.phase = .done ∧ t.bufLen.toNat = 65535 ∧
      t.remaining.toNat = 0 ∧ ∀ b, bs[65534]? = some b → Memory.read t.buf 65534 = b) ∧
    (65536 ≤ bs.length → ∃ t, contribute bs s = .next t ∧ t.phase = .failed ∧ t.errCode = .overDelivery ∧
      t.errOffset.toNat = 65535 ∧ SameBytes s t)

/-! ## Read-out -/

/-- RDSTAT (R170, D20) and the bits of STATUS (R34). -/
def Obligations.RdstatReturnsStatusRecord : Prop :=
  ∀ s : State, ∃ t st, exec .rdstat s = .next t ∧
    st.status.extractLsb' 0 3 = phaseCode s.phase ∧ st.status.getLsbD 3 = s.hdrMatched ∧
    st.status.extractLsb' 4 3 = errCodeBits s.errCode ∧ st.status.getLsbD 7 = false ∧
    st.remaining = s.remaining ∧ st.bufLen = s.bufLen ∧ st.errOffset = s.errOffset ∧
    Emitted .evNone (some (.status st)) s t ∧ SameRegisters s t ∧ SameBytes s t ∧ SamePorts s t

/-- RDHDR (R171, D19). -/
def Obligations.RdhdrReturnsHeaderFields : Prop :=
  ∀ s : State, ∃ t h, exec .rdhdr s = .next t ∧
    h.protocol = s.hdr.protocol ∧ h.target = s.hdr.target ∧ h.targetMode = s.hdr.targetMode ∧
    h.source = s.hdr.source ∧ h.cmd = s.hdr.cmd ∧ h.size = s.hdr.size ∧
    Emitted .evNone (some (.header h)) s t ∧ SameRegisters s t ∧ SameBytes s t ∧ SamePorts s t

/-- RDPAY(`a`) (R172, D18): the byte inside the read window, a refusal outside it. -/
def Obligations.RdpayReadsOnlyItsWindow : Prop :=
  ∀ (s : State) (a : Half),
    (s.phase = .done ∧ a.toNat < s.bufLen.toNat → ∃ t, exec (.rdpay a) s = .next t ∧
      Emitted .evNone (some (.payload (Memory.read s.buf a.toNat))) s t ∧ SameRegisters s t ∧ SameBytes s t ∧
      SamePorts s t) ∧
    (¬(s.phase = .done ∧ a.toNat < s.bufLen.toNat) → exec (.rdpay a) s = .refused .outsideReadWindow)

/-- A read may be repeated with the same result (R57, R173). -/
def Obligations.ReadsAreRepeatable : Prop :=
  ∀ (s t : State) (i : Instr), i = .rdstat ∨ i = .rdhdr ∨ (∃ a, i = .rdpay a) → exec i s = .next t →
    SameRegisters s t ∧ SameBytes s t ∧ t.out.event = .evNone ∧ ∃ u, exec i t = .next u ∧ u.out = t.out

/-- Event and read-out agree (R174): what EV_DONE and EV_ERR carried is what RDHDR, RDPAY and RDSTAT return after any
operations but START. -/
def Obligations.EventEqualsReadout : Prop :=
  ∀ (s t : State) (is : List Instr), s.Inv → (∀ i ∈ is, i ≠ .start) → runAll is s = .next t →
    (∀ h payload, s.out.event = .evDone h payload →
      (∃ u, exec .rdhdr t = .next u ∧ u.out.result = some (.header h)) ∧ payload.length = h.size.toNat ∧
      ∀ (a : Half) b, payload[a.toNat]? = some b →
        ∃ u, exec (.rdpay a) t = .next u ∧ u.out.result = some (.payload b)) ∧
    (∀ e o, s.out.event = .evErr e o →
      ∃ u r, exec .rdstat t = .next u ∧ u.out.result = some (.status r) ∧
        r.status.extractLsb' 4 3 = errCodeBits e ∧ r.errOffset = o)

/-- The values STATUS can take (95_test_vectors.md V6, from R35). -/
def Obligations.StatusTakesNineValues : Prop :=
  ∀ s : State, s.Inv → statusWord s.phase s.hdrMatched s.errCode ∈
    [0x00#8, 0x01#8, 0x0A#8, 0x0B#8, 0x14#8, 0x1C#8, 0x2C#8, 0x34#8, 0x3C#8]

/-! ## Errors, events, sessions -/

/-- Error entry (R193, R195): an operation that emits EV_ERR came from an active phase, latched code and offset, and
stored no byte; unless the error is an over-delivery it kept every other register. -/
def Obligations.ErrorEntryIsPrecise : Prop :=
  ∀ (s t : State) (i : Instr) (e : ErrCode) (o : Offset), exec i s = .next t → t.out.event = .evErr e o →
    (s.phase = .hunt ∨ s.phase = .collect) ∧ t.phase = .failed ∧ t.errCode = e ∧ t.errOffset = o ∧ SameBytes s t ∧
    (e ≠ .overDelivery → t.hdr = s.hdr ∧ t.hdrMatched = s.hdrMatched ∧ t.remaining = s.remaining ∧
      t.bufLen = s.bufLen)

/-- No nesting (R200) and no way out of FAILED but START (R199): every other operation changes no register. -/
def Obligations.FailedIsLeftOnlyByStart : Prop :=
  ∀ (s t : State) (i : Instr), s.phase = .failed → i ≠ .start → exec i s = .next t →
    SameRegisters s t ∧ SameBytes s t ∧ t.out.event = .evNone

/-- Which operation emits which event, and what it carries (R39): only CHUNK emits EV_DONE, only CHUNK and CANCEL emit
EV_ERR; the components are the registers and the buffer at the end of the operation. -/
def Obligations.EventsCarryTheFinalState : Prop :=
  ∀ (s t : State) (i : Instr), exec i s = .next t →
    (∀ h payload, t.out.event = .evDone h payload →
      i ∉ [.start, .cancel, .rdstat, .rdhdr] ∧ (∀ a, i ≠ .rdpay a) ∧ t.phase = .done ∧ h = t.hdr ∧
      payload = Memory.readRange t.buf 0 t.hdr.size.toNat) ∧
    (∀ e o, t.out.event = .evErr e o →
      i ∉ [.start, .rdstat, .rdhdr] ∧ (∀ a, i ≠ .rdpay a) ∧ t.phase = .failed ∧ e = t.errCode ∧ o = t.errOffset)

/-- EV_DONE means the whole payload (R131, R137): `size` bytes, `buf_len` = `size`, nothing owed, no error. -/
def Obligations.CompletionMeansWholePayload : Prop :=
  ∀ (s t : State) (i : Instr) (h : Header) (payload : List Byte), s.Inv → exec i s = .next t →
    t.out.event = .evDone h payload →
    t.phase = .done ∧ payload.length = h.size.toNat ∧ t.bufLen = h.size ∧ t.remaining = 0#16 ∧ t.errCode = .none

/-- One outcome per session (R155): operations with no START among them emit at most one event. -/
def Obligations.OneEventPerSession : Prop :=
  ∀ (s : State) (is : List Instr), (∀ i ∈ is, i ≠ .start) → (eventsOf is s).length ≤ 1

/-- The transition table (R157): the phase after each operation and the event's kind. -/
def Obligations.PhaseTransitionTable : Prop :=
  ∀ s t : State, s.Inv →
    (exec .start s = .next t → t.phase = .hunt ∧ t.out.event = .evNone) ∧
    (exec .cancel s = .next t →
      (s.phase = .hunt ∨ s.phase = .collect → t.phase = .failed ∧ ∃ o, t.out.event = .evErr .timeout o) ∧
      (s.phase ≠ .hunt ∧ s.phase ≠ .collect → t.phase = s.phase ∧ t.out.event = .evNone)) ∧
    (∀ i, i = .rdstat ∨ i = .rdhdr ∨ (∃ a, i = .rdpay a) → exec i s = .next t →
      t.phase = s.phase ∧ t.out.event = .evNone) ∧
    (∀ c, exec (chunkInstr s c) s = .next t →
      (s.phase ≠ .hunt ∧ s.phase ≠ .collect → t.phase = s.phase ∧ t.out.event = .evNone) ∧
      (s.phase = .hunt ∨ s.phase = .collect →
        (∀ i h slice, findMarker c = some i → c.drop (i + 4) = hdrList h ++ slice →
          (slice.length < h.h5.toNat + 256 * h.h6.toNat → t.phase = .collect ∧ t.out.event = .evNone) ∧
          (slice.length = h.h5.toNat + 256 * h.h6.toNat → t.phase = .done ∧ t.out.event.isDone = true) ∧
          (h.h5.toNat + 256 * h.h6.toNat < slice.length → t.phase = .failed ∧ ∃ o, t.out.event = .evErr .overDelivery o)) ∧
        (∀ i, findMarker c = some i → c.length < i + 11 →
          t.phase = .failed ∧ ∃ o, t.out.event = .evErr .malformedHeader o)) ∧
      (s.phase = .hunt → findMarker c = none → t.phase = .hunt ∧ t.out.event = .evNone) ∧
      (s.phase = .collect → findMarker c = none →
        (c.length < s.remaining.toNat → t.phase = .collect ∧ t.out.event = .evNone) ∧
        (c.length = s.remaining.toNat → t.phase = .done ∧ t.out.event.isDone = true) ∧
        (s.remaining.toNat < c.length → t.phase = .failed ∧ ∃ o, t.out.event = .evErr .overDelivery o)))

/-- After START no operation's output shows anything of the session before (R150, R201): two states with the same
parameters, and nothing else in common, give the same events, results and stops for any operations that follow a START.
The outputs of operations are compared, not the pins `rd_data`, `ev_done` and `ev_err`. -/
def Obligations.StartHidesEarlierSession : Prop :=
  ∀ (s₁ s₂ u₁ u₂ : State) (is : List Instr), s₁.params = s₂.params → exec .start s₁ = .next u₁ →
    exec .start s₂ = .next u₂ → observe is u₁ = observe is u₂

/-! ## Reset and the invariants -/

/-- Hardware reset (R220, R43, D17), as an event between operations and as a clock cycle with `rst` high: the registers
of R43, the staging state cleared, no event, no operation of the same cycle. The model's choices in it: that the event pins
are low after a reset inserted between operations is log entry 18 (DEDUCED), that the reset is the head of `inputs` and
the rest of the list stays is log entry 1, that the parameters stay is log entry 3. -/
def Obligations.ResetTakesTheResetState : Prop :=
  ∀ (s : State) (more : List Stimulus) (x : Stimulus), s.inputs = x :: more →
    (x = .reset ∨ ∃ p, x = .cycle p ∧ p.rst = true) →
    ∃ t, step s = .next t ∧
      t.phase = .idle ∧ t.hdrMatched = false ∧ t.hdr.protocol = 0#4 ∧ t.hdr.target = 0#12 ∧ t.hdr.targetMode = 0#4 ∧
      t.hdr.source = 0#12 ∧ t.hdr.cmd = 0#8 ∧ t.hdr.size = 0#16 ∧ t.remaining = 0#16 ∧ t.bufLen = 0#16 ∧
      t.errCode = .none ∧ t.errOffset = 0#32 ∧ t.out.event = .evNone ∧ t.evDone = false ∧ t.evErr = false ∧
      t.staged = [] ∧ t.drop = false ∧ t.inputs = more ∧ t.params = s.params

/-- The state after reset meets the invariant, with nothing to do, the parameters at their defaults (R5, R43). -/
def Obligations.ResetStateMeetsInvariant : Prop :=
  State.reset.Inv ∧ State.reset.phase = .idle ∧ State.reset.inputs = [] ∧
    State.reset.params.protocolLowNibble = true ∧ State.reset.params.chunkMax.toNat = 4294967295

/-- Every step keeps the invariant (R35, R22, R33, R174, and the buffer's canonical form), whatever the environment
does next. -/
def Obligations.StepKeepsInvariant : Prop :=
  ∀ s t : State, s.Inv → step s = .next t → t.Inv

/-- Every operation keeps the buffer's canonical form and its addresses below 65535 (R50, R58), from any state. -/
def Obligations.OperationsKeepBufferCanonical : Prop :=
  ∀ (s t : State) (i : Instr), Memory.wf s.buf = true → exec i s = .next t → Memory.wf t.buf = true

/-- The buffer cannot overflow (R59): under the invariant no operation and no step faults. -/
def Obligations.BufferNeverOverflows : Prop :=
  ∀ (s : State) (f : Fault), s.Inv → (∀ i, exec i s ≠ .fault f) ∧ step s ≠ .fault f

/-- The only refusals (R11): RDPAY outside its window and a chunk longer than CHUNK_MAX; every other step goes on. -/
def Obligations.StepStopsOnlyWhereRefused : Prop :=
  ∀ s : State, s.Inv →
    (∃ t, step s = .next t) ∨
    (step s = .refused .outsideReadWindow ∧ ∃ a more, s.inputs = .port (.readAddress a) :: more ∧
      ¬(s.phase = .done ∧ a.toNat < s.bufLen.toNat)) ∨
    (step s = .refused .chunkTooLong ∧ ∃ c more, s.params.chunkMax.toNat < c.length ∧
      ((∃ req, s.inputs = .port (.request req c) :: more) ∨ s.inputs = .port (.wire c) :: more))

/-- The parameters are not state (R38): no step changes them (that State carries them is log entry 3). -/
def Obligations.ParametersNeverChange : Prop :=
  ∀ s t : State, step s = .next t → t.params = s.params

/-! ## Encodings -/

/-- The six fields of a header (R75 to R80, D5), as arithmetic on the bytes, for both values of `PROTOCOL_LOW_NIBBLE`. -/
def Obligations.HeaderFieldsByArithmetic : Prop :=
  ∀ h : HdrBytes,
    ((extract true h).protocol.toNat = h.h0.toNat % 16 ∧ (extract false h).protocol.toNat = h.h0.toNat / 16) ∧
    ((extract true h).target.toNat = h.h1.toNat * 16 + h.h0.toNat / 16 ∧
      (extract false h).target.toNat = h.h1.toNat * 16 + h.h0.toNat % 16) ∧
    ((extract true h).targetMode.toNat = h.h2.toNat % 16 ∧ (extract false h).targetMode.toNat = h.h2.toNat / 16) ∧
    ((extract true h).source.toNat = h.h3.toNat * 16 + h.h2.toNat / 16 ∧
      (extract false h).source.toNat = h.h3.toNat * 16 + h.h2.toNat % 16) ∧
    ∀ low, (extract low h).cmd.toNat = h.h4.toNat ∧ (extract low h).size.toNat = h.h5.toNat + 256 * h.h6.toNat

/-- Header composition is the inverse of extraction (R88): a bijection, no bit unused. R88 states it for
`PROTOCOL_LOW_NIBBLE` = true; for false it is the model's other branch (log entry 3). -/
def Obligations.HeaderComposeAndExtractAreInverse : Prop :=
  ∀ low : Bool, (∀ h : Header, extract low (hdrBytes low h) = h) ∧ ∀ h : HdrBytes, hdrBytes low (extract low h) = h

/-- Words written out from the tables (R74, R83, R89): the three request bits, and the 88-bit pattern of FRAME.HDR for
the header `C2 AB F5 DE FF 02 01` of V1.3. The model's choices in it are log entry 12: the words are read in the context
right after reset with an empty chunk operand, so that 0b001 is CHUNK.IGNORED of the empty chunk, and an 88-bit number
has the first byte of the pattern as its least significant byte. -/
def Obligations.WrittenWordsDecode : Prop :=
  decodeTableWord 8 0b010 = some .start ∧ decodeTableWord 8 0b100 = some .cancel ∧
  decodeTableWord 8 0b001 = some (.chunkIgnored []) ∧ decodeTableWord 8 0b000 = none ∧
  decodeTableWord 88 0x0102FFDEF5ABC27E7E7E7E =
    some (.frameHdr { protocol := 0x2#4, target := 0xABC#12, targetMode := 0x5#4, source := 0xDEF#12, cmd := 0xFF#8,
                      size := 258#16 } [])

/-- Decode and encode agree, for every instruction of the table: a well-formed instruction whose row the context
selects is read back from its word, with every operand, and nothing is left requested. The words of the read operations
(log entry 4), the state read beside a CHUNK word (log entry 5) and the reading of wire units (log entries 6 and 20) are
the model's. -/
def Obligations.DecodeOfEncodeIsTheInstruction : Prop :=
  ∀ (ctx : DecodeContext) (i : Instr), i.wellFormed ctx.params = true → i.selectedIn ctx = true →
    decode ctx (encode ctx.params i) = .ok (i, none)

/-- The decoder gives only well-formed instructions whose row the context selects (log entries 4, 5 and 20 say what it
reads). -/
def Obligations.DecodedInstructionIsWellFormed : Prop :=
  ∀ (ctx : DecodeContext) (w : PortWord) (i : Instr) (rest : Option PortWord), decode ctx w = .ok (i, rest) →
    i.wellFormed ctx.params = true ∧ i.selectedIn ctx = true

/-- A line of the notation (R86, R87) is the request it stands for: `HDR`, `MARK` and `xx*N` expand, `FRAME` is the
CHUNK of a whole frame whose size is the number of bytes given. -/
def Obligations.NotationLinesAssemble : Prop :=
  assembleLine true "START".toList = .ok (some (.port (.request 0b010#3 []))) ∧
  assembleLine true "RDPAY 0xFFFE ; the last address".toList = .ok (some (.port (.readAddress 65534#16))) ∧
  assembleLine true "CHUNK MARK HDR(0, 0x001, 1, 0x123, 0x0B, 2) AA*2".toList =
    assembleLine true "FRAME(0, 0x001, 1, 0x123, 0x0B : AA AA)".toList ∧
  assembleLine true "FRAME(0, 0x001, 1, 0x123, 0x0B : AA AA)".toList =
    .ok (some (.port (.request 0b001#3 [0x7E#8, 0x7E#8, 0x7E#8, 0x7E#8, 0x10#8, 0x00#8, 0x31#8, 0x12#8, 0x0B#8, 0x02#8,
      0x00#8, 0xAA#8, 0xAA#8])))

/-! ## Steps and pins -/

/-- A step runs the decoded instruction: when the word at the head of what the environment applies decodes to `i`, the
step is `exec i` with that word taken and what it still requests put back in front. That a step takes the head of
`inputs` is log entry 1, that the rest of a request goes back in front of it is log entry 11: the model's choices. -/
def Obligations.StepRunsDecodedInstruction : Prop :=
  ∀ (s : State) (w : PortWord) (more : List Stimulus) (i : Instr) (rest : Option PortWord),
    s.inputs = .port w :: more → decode (decodeContext s) w = .ok (i, rest) →
    step s = exec i { s with inputs := putBack rest more }

/-- The block never initiates anything (R7, R154): with nothing applied, and with the empty request `0b000` (R83), a
step changes nothing but the stimulus taken (that stimuli stand in `inputs` is log entry 1). -/
def Obligations.NothingHappensUnrequested : Prop :=
  ∀ s : State, (s.inputs = [] → step s = .next s) ∧
    ∀ c more, s.inputs = .port (.request 0b000#3 c) :: more → step s = .next { s with inputs := more }

/-- Several request bits (R83, R197, D21): the operations are performed one after the other in the order CANCEL, START,
CHUNK. That each is a step of its own is log entry 11, that the request stands in `inputs` is log entry 1. -/
def Obligations.RequestBitsRunInOrder : Prop :=
  ∀ (s : State) (c : List Byte) (more : List Stimulus),
    Host.Core.run core 3 { s with inputs := .port (.request 0b111#3 c) :: more } =
      chunkAfter [.cancel, .start] c { s with inputs := more } ∧
    Host.Core.run core 2 { s with inputs := .port (.request 0b011#3 c) :: more } =
      chunkAfter [.start] c { s with inputs := more } ∧
    Host.Core.run core 2 { s with inputs := .port (.request 0b101#3 c) :: more } =
      chunkAfter [.cancel] c { s with inputs := more } ∧
    Host.Core.run core 2 { s with inputs := .port (.request 0b110#3 c) :: more } =
      runAll [.cancel, .start] { s with inputs := more }

/-- One clock cycle with `rst` low (R42, R83, R40, D3, D31): the request vector, the chunk, the drop rule, the staging
state, the read port, the end of the event pulses; no register and no buffer byte changes. The model's choices in it: R42
places the operations in the cycle itself, and that the cycle hands them on as one word for the next steps is log entry
10; that `rd_data` is judged before the operations of the same cycle is log entry 8. -/
def Obligations.ClockCycleFollowsPinRules : Prop :=
  ∀ (s : State) (p : PinIn) (more : List Stimulus), s.inputs = .cycle p :: more → p.rst = false →
    ∃ t req c, step s = .next t ∧ t.toBlock = s.toBlock ∧ t.out = s.out ∧ t.params = s.params ∧
      t.inputs = .port (.request req c) :: more ∧
      req.getLsbD 2 = p.cancel ∧ req.getLsbD 1 = p.start ∧
      (req.getLsbD 0 = true ↔ p.inValid = true ∧ p.inLast = true ∧ s.drop = false ∧
        ¬((p.start = true ∨ p.cancel = true) ∧ s.staged ≠ [])) ∧
      (req.getLsbD 0 = true → c = s.staged ++ [p.inData]) ∧
      (p.inValid = true ∧ p.inLast = true → t.staged = [] ∧ t.drop = false) ∧
      (p.inValid = true ∧ p.inLast = false → t.staged = s.staged ++ [p.inData]) ∧
      (p.inValid = false → t.staged = s.staged) ∧
      (¬(p.inValid = true ∧ p.inLast = true) →
        (t.drop = true ↔ s.drop = true ∨ ((p.start = true ∨ p.cancel = true) ∧ s.staged ≠ []))) ∧
      (s.phase = .done ∧ p.rdAddr.toNat < s.bufLen.toNat → t.rdData = Memory.read s.buf p.rdAddr.toNat) ∧
      t.evDone = false ∧ t.evErr = false

/-- A chunk spelled at the pins is the operation CHUNK (R42): its bytes, one a cycle, end in the registers, the buffer
and the outputs of CHUNK(`c`), and leave the staging state empty. The two steps a byte (the cycle, then its request) are
log entry 10, the model's choice; cycles without a byte and pulses between the bytes are not in it. -/
def Obligations.PinChunkIsChunkOperation : Prop :=
  ∀ (s u : State) (c : List Byte) (more : List Stimulus), c ≠ [] → s.staged = [] → s.drop = false →
    exec (chunkInstr s c) s = .next u →
    ∃ t, Host.Core.run core (2 * c.length) { s with inputs := chunkCycles c ++ more } = .next t ∧
      t.toBlock = u.toBlock ∧ t.out = u.out ∧ t.staged = [] ∧ t.drop = false ∧ t.inputs = more

/-- RDSTAT and RDHDR are the sampling of the output pins (R40, R83): their results are the pins' values. -/
def Obligations.ReadsSampleTheOutputPins : Prop :=
  ∀ s : State, ∃ t u r h, exec .rdstat s = .next t ∧ t.out.result = some (.status r) ∧
    exec .rdhdr s = .next u ∧ u.out.result = some (.header h) ∧
    r.status = 0#1 ++ (pinOutputs s).errCode ++ BitVec.ofBool (pinOutputs s).hdrMatched ++ (pinOutputs s).phase ∧
    r.remaining = (pinOutputs s).remaining ∧ r.bufLen = (pinOutputs s).bufLen ∧
    r.errOffset = (pinOutputs s).errOffset ∧ h.protocol = (pinOutputs s).protocol ∧ h.target = (pinOutputs s).target ∧
    h.targetMode = (pinOutputs s).targetMode ∧ h.source = (pinOutputs s).source ∧ h.cmd = (pinOutputs s).cmd ∧
    h.size = (pinOutputs s).size ∧ (pinOutputs s).inReady = true
end

