-- ==== Sys2Proof/Laws/Memory.lean ====
section
/-! SUPPORT. The laws of the buffer: read after write, the canonical form is kept, consecutive writes. -/

namespace Sys2Proof.Machine

namespace Memory

/-- Read after write, whatever list the buffer is. -/
theorem lookup_write (m : Memory) (a b : Nat) (v : Byte) :
    lookup (write m a v) b = if a = b then some v else lookup m b := by
  induction m with
  | nil => simp [write, lookup]
  | cons c m ih =>
    obtain ⟨k, w⟩ := c
    simp only [write]
    split
    · simp [lookup]
    · split
      · subst_vars; simp only [lookup]; split <;> rfl
      · simp only [lookup, ih]
        by_cases hk : k = b
        · subst hk; simp; intro h; omega
        · simp [hk]

theorem all_write (m : Memory) (a : Nat) (v : Byte) (p : Nat → Bool) (hm : m.all (fun c => p c.1) = true)
    (ha : p a = true) : (write m a v).all (fun c => p c.1) = true := by
  induction m with
  | nil => simp [write, ha]
  | cons c m ih =>
    obtain ⟨k, w⟩ := c
    simp only [List.all_cons, Bool.and_eq_true] at hm
    simp only [write]
    split
    · simp only [List.all_cons, ha, hm.1, hm.2, Bool.and_self]
    · split
      · simp only [List.all_cons, ha, hm.2, Bool.and_self]
      · simp only [List.all_cons, hm.1, ih hm.2, Bool.and_self]

theorem all_lt_mono {m : Memory} {a b : Nat} (h : m.all (fun c => decide (b < c.1)) = true) (hab : a ≤ b) :
    m.all (fun c => decide (a < c.1)) = true := by
  simp only [List.all_eq_true, decide_eq_true_eq] at h ⊢
  intro c hc; have := h c hc; omega

theorem rising_write (m : Memory) (a : Nat) (v : Byte) (hm : rising m = true) : rising (write m a v) = true := by
  induction m with
  | nil => simp [write, rising]
  | cons c m ih =>
    obtain ⟨k, w⟩ := c
    have hm' := hm
    simp only [rising, Bool.and_eq_true] at hm
    simp only [write]
    split
    · rename_i hak
      rw [rising, hm', Bool.and_true]
      simp only [List.all_cons, Bool.and_eq_true, decide_eq_true_eq]
      exact ⟨hak, all_lt_mono hm.1 (by omega)⟩
    · split
      · subst_vars; simp only [rising, hm.1, hm.2, Bool.and_self]
      · rw [rising, ih hm.2, Bool.and_true]
        exact all_write m a v (fun x => decide (k < x)) hm.1 (by simp; omega)

/-- The canonical form is kept by a write to an address of `BUF`. -/
theorem wf_write (m : Memory) (a : Nat) (v : Byte) (hm : wf m = true) (ha : a < bufBytes) : wf (write m a v) = true := by
  simp only [wf, Bool.and_eq_true] at hm ⊢
  exact ⟨rising_write m a v hm.1, all_write m a v (fun x => decide (x < bufBytes)) hm.2 (by simpa using ha)⟩

/-- The buffer right after reset is in canonical form. -/
theorem wf_reset : wf State.reset.buf = true := rfl

/-- The canonical form is kept by consecutive writes that stay inside `BUF`. -/
theorem wf_writeBytes (m : Memory) (a : Nat) (vs : List Byte) (hm : wf m = true) (ha : a + vs.length ≤ bufBytes) :
    wf (writeBytes m a vs) = true := by
  induction vs generalizing m a with
  | nil => exact hm
  | cons v vs ih =>
    simp only [List.length_cons] at ha
    exact ih _ _ (wf_write m a v hm (by omega)) (by omega)

theorem rising_writeBytes (m : Memory) (a : Nat) (vs : List Byte) (hm : rising m = true) :
    rising (writeBytes m a vs) = true := by
  induction vs generalizing m a with
  | nil => exact hm
  | cons v vs ih => exact ih _ _ (rising_write m a v hm)

theorem rising_of_wf {m : Memory} (hm : wf m = true) : rising m = true := by
  simp only [wf, Bool.and_eq_true] at hm; exact hm.1

/-- Read after consecutive writes: the written byte inside the range, the old one outside it. -/
theorem lookup_writeBytes (m : Memory) (a b : Nat) (vs : List Byte) :
    lookup (writeBytes m a vs) b = if a ≤ b ∧ b < a + vs.length then vs[b - a]? else lookup m b := by
  induction vs generalizing m a with
  | nil =>
    have h : ¬(a ≤ b ∧ b < a + 0) := by omega
    simp only [writeBytes, List.length_nil, if_neg h]
  | cons v vs ih =>
    simp only [writeBytes, ih, lookup_write m a b v, List.length_cons]
    by_cases h1 : a + 1 ≤ b ∧ b < a + 1 + vs.length
    · rw [if_pos h1, if_pos (by omega)]
      obtain ⟨d, rfl⟩ : ∃ d, b = a + 1 + d := ⟨b - (a + 1), by omega⟩
      rw [show a + 1 + d - (a + 1) = d by omega, show a + 1 + d - a = d + 1 by omega, List.getElem?_cons_succ]
    · rw [if_neg h1]
      by_cases h2 : a = b
      · subst h2; rw [if_pos rfl, if_pos (by omega)]; simp
      · rw [if_neg h2, if_neg (by omega)]

theorem writeBytes_append (m : Memory) (a : Nat) (us vs : List Byte) :
    writeBytes m a (us ++ vs) = writeBytes (writeBytes m a us) (a + us.length) vs := by
  induction us generalizing m a with
  | nil => rfl
  | cons u us ih =>
    simp only [List.cons_append, writeBytes, ih, List.length_cons]
    rw [show a + 1 + us.length = a + (us.length + 1) by omega]

@[simp] theorem length_readRange (m : Memory) (a n : Nat) : (readRange m a n).length = n := by
  induction n generalizing a with
  | zero => rfl
  | succ n ih => simp [readRange, ih]

theorem getElem?_readRange (m : Memory) (a n k : Nat) (hk : k < n) : (readRange m a n)[k]? = some (read m (a + k)) := by
  induction n generalizing a k with
  | zero => omega
  | succ n ih =>
    cases k with
    | zero => simp [readRange]
    | succ k => rw [readRange, List.getElem?_cons_succ, ih (a + 1) k (by omega), show a + 1 + k = a + (k + 1) by omega]

end Memory

end Sys2Proof.Machine
end

