-- ==== Sys2Proof/Laws/State.lean ====
section
/-! SUPPORT. One lemma for each field of State under each named update, all by rfl. Where an update leaves the thirteen
items of R20 alone, one lemma about `toBlock` says so for all of them. -/

namespace Sys2Proof.Machine

/-! `emit` -/

@[simp] theorem emit_toBlock (ev : Event) (res : Option ReadResult) (s : State) : (emit ev res s).toBlock = s.toBlock := rfl
@[simp] theorem emit_params (ev : Event) (res : Option ReadResult) (s : State) : (emit ev res s).params = s.params := rfl
@[simp] theorem emit_out (ev : Event) (res : Option ReadResult) (s : State) : (emit ev res s).out = { event := ev, result := res } := rfl
@[simp] theorem emit_evDone (ev : Event) (res : Option ReadResult) (s : State) : (emit ev res s).evDone = (s.evDone || ev.isDone) := rfl
@[simp] theorem emit_evErr (ev : Event) (res : Option ReadResult) (s : State) : (emit ev res s).evErr = (s.evErr || ev.isErr) := rfl
@[simp] theorem emit_rdData (ev : Event) (res : Option ReadResult) (s : State) : (emit ev res s).rdData = s.rdData := rfl
@[simp] theorem emit_staged (ev : Event) (res : Option ReadResult) (s : State) : (emit ev res s).staged = s.staged := rfl
@[simp] theorem emit_drop (ev : Event) (res : Option ReadResult) (s : State) : (emit ev res s).drop = s.drop := rfl
@[simp] theorem emit_draws (ev : Event) (res : Option ReadResult) (s : State) : (emit ev res s).draws = s.draws := rfl
@[simp] theorem emit_inputs (ev : Event) (res : Option ReadResult) (s : State) : (emit ev res s).inputs = s.inputs := rfl

/-! `enterFailed` -/

@[simp] theorem enterFailed_phase (e : ErrCode) (info : Offset) (s : State) : (enterFailed e info s).phase = .failed := rfl
@[simp] theorem enterFailed_hdrMatched (e : ErrCode) (info : Offset) (s : State) : (enterFailed e info s).hdrMatched = s.hdrMatched := rfl
@[simp] theorem enterFailed_hdr (e : ErrCode) (info : Offset) (s : State) : (enterFailed e info s).hdr = s.hdr := rfl
@[simp] theorem enterFailed_remaining (e : ErrCode) (info : Offset) (s : State) : (enterFailed e info s).remaining = s.remaining := rfl
@[simp] theorem enterFailed_bufLen (e : ErrCode) (info : Offset) (s : State) : (enterFailed e info s).bufLen = s.bufLen := rfl
@[simp] theorem enterFailed_errCode (e : ErrCode) (info : Offset) (s : State) : (enterFailed e info s).errCode = e := rfl
@[simp] theorem enterFailed_errOffset (e : ErrCode) (info : Offset) (s : State) : (enterFailed e info s).errOffset = info := rfl
@[simp] theorem enterFailed_buf (e : ErrCode) (info : Offset) (s : State) : (enterFailed e info s).buf = s.buf := rfl
@[simp] theorem enterFailed_params (e : ErrCode) (info : Offset) (s : State) : (enterFailed e info s).params = s.params := rfl
@[simp] theorem enterFailed_out (e : ErrCode) (info : Offset) (s : State) : (enterFailed e info s).out = { event := .evErr e info, result := none } := rfl
@[simp] theorem enterFailed_evDone (e : ErrCode) (info : Offset) (s : State) : (enterFailed e info s).evDone = (s.evDone || false) := rfl
@[simp] theorem enterFailed_evErr (e : ErrCode) (info : Offset) (s : State) : (enterFailed e info s).evErr = (s.evErr || true) := rfl
@[simp] theorem enterFailed_rdData (e : ErrCode) (info : Offset) (s : State) : (enterFailed e info s).rdData = s.rdData := rfl
@[simp] theorem enterFailed_staged (e : ErrCode) (info : Offset) (s : State) : (enterFailed e info s).staged = s.staged := rfl
@[simp] theorem enterFailed_drop (e : ErrCode) (info : Offset) (s : State) : (enterFailed e info s).drop = s.drop := rfl
@[simp] theorem enterFailed_draws (e : ErrCode) (info : Offset) (s : State) : (enterFailed e info s).draws = s.draws := rfl
@[simp] theorem enterFailed_inputs (e : ErrCode) (info : Offset) (s : State) : (enterFailed e info s).inputs = s.inputs := rfl

/-! `freshRegisters` -/

@[simp] theorem freshRegisters_phase (ph : Phase) (s : State) : (freshRegisters ph s).phase = ph := rfl
@[simp] theorem freshRegisters_hdrMatched (ph : Phase) (s : State) : (freshRegisters ph s).hdrMatched = false := rfl
@[simp] theorem freshRegisters_hdr (ph : Phase) (s : State) : (freshRegisters ph s).hdr = zeroHeader := rfl
@[simp] theorem freshRegisters_remaining (ph : Phase) (s : State) : (freshRegisters ph s).remaining = 0#16 := rfl
@[simp] theorem freshRegisters_bufLen (ph : Phase) (s : State) : (freshRegisters ph s).bufLen = 0#16 := rfl
@[simp] theorem freshRegisters_errCode (ph : Phase) (s : State) : (freshRegisters ph s).errCode = .none := rfl
@[simp] theorem freshRegisters_errOffset (ph : Phase) (s : State) : (freshRegisters ph s).errOffset = 0#32 := rfl
@[simp] theorem freshRegisters_buf (ph : Phase) (s : State) : (freshRegisters ph s).buf = s.buf := rfl
@[simp] theorem freshRegisters_params (ph : Phase) (s : State) : (freshRegisters ph s).params = s.params := rfl
@[simp] theorem freshRegisters_out (ph : Phase) (s : State) : (freshRegisters ph s).out = s.out := rfl
@[simp] theorem freshRegisters_evDone (ph : Phase) (s : State) : (freshRegisters ph s).evDone = s.evDone := rfl
@[simp] theorem freshRegisters_evErr (ph : Phase) (s : State) : (freshRegisters ph s).evErr = s.evErr := rfl
@[simp] theorem freshRegisters_rdData (ph : Phase) (s : State) : (freshRegisters ph s).rdData = s.rdData := rfl
@[simp] theorem freshRegisters_staged (ph : Phase) (s : State) : (freshRegisters ph s).staged = s.staged := rfl
@[simp] theorem freshRegisters_drop (ph : Phase) (s : State) : (freshRegisters ph s).drop = s.drop := rfl
@[simp] theorem freshRegisters_draws (ph : Phase) (s : State) : (freshRegisters ph s).draws = s.draws := rfl
@[simp] theorem freshRegisters_inputs (ph : Phase) (s : State) : (freshRegisters ph s).inputs = s.inputs := rfl

/-! `openSession` -/

@[simp] theorem openSession_phase (s : State) : (openSession s).phase = .hunt := rfl
@[simp] theorem openSession_hdrMatched (s : State) : (openSession s).hdrMatched = false := rfl
@[simp] theorem openSession_hdr (s : State) : (openSession s).hdr = zeroHeader := rfl
@[simp] theorem openSession_remaining (s : State) : (openSession s).remaining = 0#16 := rfl
@[simp] theorem openSession_bufLen (s : State) : (openSession s).bufLen = 0#16 := rfl
@[simp] theorem openSession_errCode (s : State) : (openSession s).errCode = .none := rfl
@[simp] theorem openSession_errOffset (s : State) : (openSession s).errOffset = 0#32 := rfl
@[simp] theorem openSession_buf (s : State) : (openSession s).buf = s.buf := rfl
@[simp] theorem openSession_params (s : State) : (openSession s).params = s.params := rfl
@[simp] theorem openSession_out (s : State) : (openSession s).out = { event := .evNone, result := none } := rfl
@[simp] theorem openSession_evDone (s : State) : (openSession s).evDone = (s.evDone || false) := rfl
@[simp] theorem openSession_evErr (s : State) : (openSession s).evErr = (s.evErr || false) := rfl
@[simp] theorem openSession_rdData (s : State) : (openSession s).rdData = s.rdData := rfl
@[simp] theorem openSession_staged (s : State) : (openSession s).staged = s.staged := rfl
@[simp] theorem openSession_drop (s : State) : (openSession s).drop = s.drop := rfl
@[simp] theorem openSession_draws (s : State) : (openSession s).draws = s.draws := rfl
@[simp] theorem openSession_inputs (s : State) : (openSession s).inputs = s.inputs := rfl

/-! `hardReset` -/

@[simp] theorem hardReset_phase (s : State) : (hardReset s).phase = .idle := rfl
@[simp] theorem hardReset_hdrMatched (s : State) : (hardReset s).hdrMatched = false := rfl
@[simp] theorem hardReset_hdr (s : State) : (hardReset s).hdr = zeroHeader := rfl
@[simp] theorem hardReset_remaining (s : State) : (hardReset s).remaining = 0#16 := rfl
@[simp] theorem hardReset_bufLen (s : State) : (hardReset s).bufLen = 0#16 := rfl
@[simp] theorem hardReset_errCode (s : State) : (hardReset s).errCode = .none := rfl
@[simp] theorem hardReset_errOffset (s : State) : (hardReset s).errOffset = 0#32 := rfl
@[simp] theorem hardReset_buf (s : State) : (hardReset s).buf = s.buf := rfl
@[simp] theorem hardReset_params (s : State) : (hardReset s).params = s.params := rfl
@[simp] theorem hardReset_out (s : State) : (hardReset s).out = { event := .evNone, result := none } := rfl
@[simp] theorem hardReset_evDone (s : State) : (hardReset s).evDone = false := rfl
@[simp] theorem hardReset_evErr (s : State) : (hardReset s).evErr = false := rfl
@[simp] theorem hardReset_rdData (s : State) : (hardReset s).rdData = s.rdData := rfl
@[simp] theorem hardReset_staged (s : State) : (hardReset s).staged = [] := rfl
@[simp] theorem hardReset_drop (s : State) : (hardReset s).drop = false := rfl
@[simp] theorem hardReset_draws (s : State) : (hardReset s).draws = s.draws := rfl
@[simp] theorem hardReset_inputs (s : State) : (hardReset s).inputs = s.inputs := rfl

/-! `loadHeader` -/

@[simp] theorem loadHeader_phase (h : Header) (s : State) : (loadHeader h s).phase = s.phase := rfl
@[simp] theorem loadHeader_hdrMatched (h : Header) (s : State) : (loadHeader h s).hdrMatched = true := rfl
@[simp] theorem loadHeader_hdr (h : Header) (s : State) : (loadHeader h s).hdr = h := rfl
@[simp] theorem loadHeader_remaining (h : Header) (s : State) : (loadHeader h s).remaining = h.size := rfl
@[simp] theorem loadHeader_bufLen (h : Header) (s : State) : (loadHeader h s).bufLen = 0#16 := rfl
@[simp] theorem loadHeader_errCode (h : Header) (s : State) : (loadHeader h s).errCode = s.errCode := rfl
@[simp] theorem loadHeader_errOffset (h : Header) (s : State) : (loadHeader h s).errOffset = s.errOffset := rfl
@[simp] theorem loadHeader_buf (h : Header) (s : State) : (loadHeader h s).buf = s.buf := rfl
@[simp] theorem loadHeader_params (h : Header) (s : State) : (loadHeader h s).params = s.params := rfl
@[simp] theorem loadHeader_out (h : Header) (s : State) : (loadHeader h s).out = s.out := rfl
@[simp] theorem loadHeader_evDone (h : Header) (s : State) : (loadHeader h s).evDone = s.evDone := rfl
@[simp] theorem loadHeader_evErr (h : Header) (s : State) : (loadHeader h s).evErr = s.evErr := rfl
@[simp] theorem loadHeader_rdData (h : Header) (s : State) : (loadHeader h s).rdData = s.rdData := rfl
@[simp] theorem loadHeader_staged (h : Header) (s : State) : (loadHeader h s).staged = s.staged := rfl
@[simp] theorem loadHeader_drop (h : Header) (s : State) : (loadHeader h s).drop = s.drop := rfl
@[simp] theorem loadHeader_draws (h : Header) (s : State) : (loadHeader h s).draws = s.draws := rfl
@[simp] theorem loadHeader_inputs (h : Header) (s : State) : (loadHeader h s).inputs = s.inputs := rfl

/-! `appendBytes` -/

@[simp] theorem appendBytes_phase (bs : List Byte) (s : State) : (appendBytes bs s).phase = s.phase := rfl
@[simp] theorem appendBytes_hdrMatched (bs : List Byte) (s : State) : (appendBytes bs s).hdrMatched = s.hdrMatched := rfl
@[simp] theorem appendBytes_hdr (bs : List Byte) (s : State) : (appendBytes bs s).hdr = s.hdr := rfl
@[simp] theorem appendBytes_remaining (bs : List Byte) (s : State) : (appendBytes bs s).remaining = s.remaining - BitVec.ofNat 16 bs.length := rfl
@[simp] theorem appendBytes_bufLen (bs : List Byte) (s : State) : (appendBytes bs s).bufLen = s.bufLen + BitVec.ofNat 16 bs.length := rfl
@[simp] theorem appendBytes_errCode (bs : List Byte) (s : State) : (appendBytes bs s).errCode = s.errCode := rfl
@[simp] theorem appendBytes_errOffset (bs : List Byte) (s : State) : (appendBytes bs s).errOffset = s.errOffset := rfl
@[simp] theorem appendBytes_buf (bs : List Byte) (s : State) : (appendBytes bs s).buf = Memory.writeBytes s.buf s.bufLen.toNat bs := rfl
@[simp] theorem appendBytes_params (bs : List Byte) (s : State) : (appendBytes bs s).params = s.params := rfl
@[simp] theorem appendBytes_out (bs : List Byte) (s : State) : (appendBytes bs s).out = s.out := rfl
@[simp] theorem appendBytes_evDone (bs : List Byte) (s : State) : (appendBytes bs s).evDone = s.evDone := rfl
@[simp] theorem appendBytes_evErr (bs : List Byte) (s : State) : (appendBytes bs s).evErr = s.evErr := rfl
@[simp] theorem appendBytes_rdData (bs : List Byte) (s : State) : (appendBytes bs s).rdData = s.rdData := rfl
@[simp] theorem appendBytes_staged (bs : List Byte) (s : State) : (appendBytes bs s).staged = s.staged := rfl
@[simp] theorem appendBytes_drop (bs : List Byte) (s : State) : (appendBytes bs s).drop = s.drop := rfl
@[simp] theorem appendBytes_draws (bs : List Byte) (s : State) : (appendBytes bs s).draws = s.draws := rfl
@[simp] theorem appendBytes_inputs (bs : List Byte) (s : State) : (appendBytes bs s).inputs = s.inputs := rfl

/-! `completePayload` -/

@[simp] theorem completePayload_phase (s : State) : (completePayload s).phase = .done := rfl
@[simp] theorem completePayload_hdrMatched (s : State) : (completePayload s).hdrMatched = s.hdrMatched := rfl
@[simp] theorem completePayload_hdr (s : State) : (completePayload s).hdr = s.hdr := rfl
@[simp] theorem completePayload_remaining (s : State) : (completePayload s).remaining = s.remaining := rfl
@[simp] theorem completePayload_bufLen (s : State) : (completePayload s).bufLen = s.bufLen := rfl
@[simp] theorem completePayload_errCode (s : State) : (completePayload s).errCode = s.errCode := rfl
@[simp] theorem completePayload_errOffset (s : State) : (completePayload s).errOffset = s.errOffset := rfl
@[simp] theorem completePayload_buf (s : State) : (completePayload s).buf = s.buf := rfl
@[simp] theorem completePayload_params (s : State) : (completePayload s).params = s.params := rfl
@[simp] theorem completePayload_out (s : State) : (completePayload s).out = { event := doneEvent s, result := none } := rfl
@[simp] theorem completePayload_evDone (s : State) : (completePayload s).evDone = (s.evDone || true) := rfl
@[simp] theorem completePayload_evErr (s : State) : (completePayload s).evErr = (s.evErr || false) := rfl
@[simp] theorem completePayload_rdData (s : State) : (completePayload s).rdData = s.rdData := rfl
@[simp] theorem completePayload_staged (s : State) : (completePayload s).staged = s.staged := rfl
@[simp] theorem completePayload_drop (s : State) : (completePayload s).drop = s.drop := rfl
@[simp] theorem completePayload_draws (s : State) : (completePayload s).draws = s.draws := rfl
@[simp] theorem completePayload_inputs (s : State) : (completePayload s).inputs = s.inputs := rfl

/-! `keepCollecting` -/

@[simp] theorem keepCollecting_phase (s : State) : (keepCollecting s).phase = .collect := rfl
@[simp] theorem keepCollecting_hdrMatched (s : State) : (keepCollecting s).hdrMatched = s.hdrMatched := rfl
@[simp] theorem keepCollecting_hdr (s : State) : (keepCollecting s).hdr = s.hdr := rfl
@[simp] theorem keepCollecting_remaining (s : State) : (keepCollecting s).remaining = s.remaining := rfl
@[simp] theorem keepCollecting_bufLen (s : State) : (keepCollecting s).bufLen = s.bufLen := rfl
@[simp] theorem keepCollecting_errCode (s : State) : (keepCollecting s).errCode = s.errCode := rfl
@[simp] theorem keepCollecting_errOffset (s : State) : (keepCollecting s).errOffset = s.errOffset := rfl
@[simp] theorem keepCollecting_buf (s : State) : (keepCollecting s).buf = s.buf := rfl
@[simp] theorem keepCollecting_params (s : State) : (keepCollecting s).params = s.params := rfl
@[simp] theorem keepCollecting_out (s : State) : (keepCollecting s).out = { event := .evNone, result := none } := rfl
@[simp] theorem keepCollecting_evDone (s : State) : (keepCollecting s).evDone = (s.evDone || false) := rfl
@[simp] theorem keepCollecting_evErr (s : State) : (keepCollecting s).evErr = (s.evErr || false) := rfl
@[simp] theorem keepCollecting_rdData (s : State) : (keepCollecting s).rdData = s.rdData := rfl
@[simp] theorem keepCollecting_staged (s : State) : (keepCollecting s).staged = s.staged := rfl
@[simp] theorem keepCollecting_drop (s : State) : (keepCollecting s).drop = s.drop := rfl
@[simp] theorem keepCollecting_draws (s : State) : (keepCollecting s).draws = s.draws := rfl
@[simp] theorem keepCollecting_inputs (s : State) : (keepCollecting s).inputs = s.inputs := rfl

/-! `resetEdge` -/

@[simp] theorem resetEdge_phase (s : State) : (resetEdge s).phase = .idle := rfl
@[simp] theorem resetEdge_hdrMatched (s : State) : (resetEdge s).hdrMatched = false := rfl
@[simp] theorem resetEdge_hdr (s : State) : (resetEdge s).hdr = zeroHeader := rfl
@[simp] theorem resetEdge_remaining (s : State) : (resetEdge s).remaining = 0#16 := rfl
@[simp] theorem resetEdge_bufLen (s : State) : (resetEdge s).bufLen = 0#16 := rfl
@[simp] theorem resetEdge_errCode (s : State) : (resetEdge s).errCode = .none := rfl
@[simp] theorem resetEdge_errOffset (s : State) : (resetEdge s).errOffset = 0#32 := rfl
@[simp] theorem resetEdge_buf (s : State) : (resetEdge s).buf = s.buf := rfl
@[simp] theorem resetEdge_params (s : State) : (resetEdge s).params = s.params := rfl
@[simp] theorem resetEdge_out (s : State) : (resetEdge s).out = { event := .evNone, result := none } := rfl
@[simp] theorem resetEdge_evDone (s : State) : (resetEdge s).evDone = false := rfl
@[simp] theorem resetEdge_evErr (s : State) : (resetEdge s).evErr = false := rfl
@[simp] theorem resetEdge_rdData (s : State) : (resetEdge s).rdData = Config.rdDataFree s.draws := rfl
@[simp] theorem resetEdge_staged (s : State) : (resetEdge s).staged = [] := rfl
@[simp] theorem resetEdge_drop (s : State) : (resetEdge s).drop = false := rfl
@[simp] theorem resetEdge_draws (s : State) : (resetEdge s).draws = s.draws + 1 := rfl
@[simp] theorem resetEdge_inputs (s : State) : (resetEdge s).inputs = s.inputs := rfl

/-! `clockEdge` -/

@[simp] theorem clockEdge_toBlock (p : PinIn) (s : State) : (clockEdge p s).toBlock = s.toBlock := rfl
@[simp] theorem clockEdge_params (p : PinIn) (s : State) : (clockEdge p s).params = s.params := rfl
@[simp] theorem clockEdge_out (p : PinIn) (s : State) : (clockEdge p s).out = s.out := rfl
@[simp] theorem clockEdge_evDone (p : PinIn) (s : State) : (clockEdge p s).evDone = false := rfl
@[simp] theorem clockEdge_evErr (p : PinIn) (s : State) : (clockEdge p s).evErr = false := rfl
@[simp] theorem clockEdge_rdData (p : PinIn) (s : State) : (clockEdge p s).rdData = sampledByte p.rdAddr s := rfl
@[simp] theorem clockEdge_staged (p : PinIn) (s : State) : (clockEdge p s).staged = stagedAfter p s := rfl
@[simp] theorem clockEdge_drop (p : PinIn) (s : State) : (clockEdge p s).drop = dropAfter p s := rfl
@[simp] theorem clockEdge_draws (p : PinIn) (s : State) : (clockEdge p s).draws = s.draws + 1 := rfl
@[simp] theorem clockEdge_inputs (p : PinIn) (s : State) : (clockEdge p s).inputs = .port (pinRequest p s) :: s.inputs := rfl

end Sys2Proof.Machine
end

