-- ==== Sys2Proof/Laws/Exec.lean ====
section
/-! SUPPORT. What each shared operation can answer, said once: `contribute`, the five CHUNK cases, the operation
CHUNK(`c`) behind its rows, and the whole of `exec`. -/

namespace Sys2Proof.Machine

/-- The four answers of `contribute` (R130 to R133). -/
theorem contribute_cases (bs : List Byte) (s : State) :
    (s.remaining.toNat < bs.length ∧
      contribute bs s = .next (enterFailed .overDelivery (s.hdr.size.setWidth 32) s)) ∨
    (bs.length ≤ s.remaining.toNat ∧ bufBytes < s.bufLen.toNat + bs.length ∧
      contribute bs s = .fault .noSuchBufferAddress) ∨
    (bs.length = s.remaining.toNat ∧ s.bufLen.toNat + bs.length ≤ bufBytes ∧
      contribute bs s = .next (completePayload (appendBytes bs s))) ∨
    (bs.length < s.remaining.toNat ∧ s.bufLen.toNat + bs.length ≤ bufBytes ∧
      contribute bs s = .next (keepCollecting (appendBytes bs s))) := by
  unfold contribute
  split
  · exact .inl ⟨‹_›, rfl⟩
  · split
    · exact .inr (.inl ⟨by omega, ‹_›, rfl⟩)
    · split
      · exact .inr (.inr (.inl ⟨by omega, by omega, rfl⟩))
      · exact .inr (.inr (.inr ⟨by omega, by omega, rfl⟩))

theorem contribute_never_refuses (bs : List Byte) (s : State) (r : Refusal) : contribute bs s ≠ .refused r := by
  rcases contribute_cases bs s with h | h | h | h <;> simp [h]

/-- A chunk longer than CHUNK_MAX is refused (R100). -/
theorem onChunk_refused {c : List Byte} {s : State} (k : ChunkCase → Result) (h : chunkFits s.params c = false) :
    onChunk c s k = .refused .chunkTooLong := by simp [onChunk, h]

/-- Any other chunk is handed to its case (R100). -/
theorem onChunk_fits {c : List Byte} {s : State} (k : ChunkCase → Result) (h : chunkFits s.params c = true) :
    onChunk c s k = k (chunkCase s.phase s.hdrMatched c) := by simp [onChunk, h]

/-- Two continuations that agree on every case make the same operation. -/
theorem onChunk_congr {c : List Byte} {s : State} {k k' : ChunkCase → Result} (h : ∀ x, k x = k' x) :
    onChunk c s k = onChunk c s k' := by simp only [onChunk, h]

/-- Each of the five rows performs the one operation CHUNK(`c`) (R82, R100). -/
@[simp] theorem exec_chunkIgnored (c : List Byte) (s : State) : exec (.chunkIgnored c) s = performChunk c s := by
  simp only [exec, execChunkIgnored, performChunk]; exact onChunk_congr (by intro x; cases x <;> rfl)

@[simp] theorem exec_chunkSync (c : List Byte) (s : State) : exec (.chunkSync c) s = performChunk c s := by
  simp only [exec, execChunkSync, performChunk]; exact onChunk_congr (by intro x; cases x <;> rfl)

@[simp] theorem exec_chunkMalformed (c : List Byte) (s : State) : exec (.chunkMalformed c) s = performChunk c s := by
  simp only [exec, execChunkMalformed, performChunk]; exact onChunk_congr (by intro x; cases x <;> rfl)

@[simp] theorem exec_chunkCont (c : List Byte) (s : State) : exec (.chunkCont c) s = performChunk c s := by
  simp only [exec, execChunkCont, performChunk]; exact onChunk_congr (by intro x; cases x <;> rfl)

@[simp] theorem exec_chunkNoise (c : List Byte) (s : State) : exec (.chunkNoise c) s = performChunk c s := by
  simp only [exec, execChunkNoise, performChunk]; exact onChunk_congr (by intro x; cases x <;> rfl)

@[simp] theorem exec_frameHdr (h : Header) (slice : List Byte) (s : State) :
    exec (.frameHdr h slice) s = performChunk (frameBytes s.params.protocolLowNibble h slice) s := rfl

/-- The row the decoder reads performs CHUNK(`c`). -/
theorem exec_selectRow (ctx : DecodeContext) (c : List Byte) (s : State) :
    exec (selectRow ctx c) s = performChunk c s := by
  unfold selectRow
  split <;> simp

/-- CHUNK(`c`) on a chunk that fits, case by case (R100). -/
theorem performChunk_cases {c : List Byte} {s : State} (h : chunkFits s.params c = true) :
    (isActive s.phase = false ∧ performChunk c s = .next (emit .evNone none s)) ∨
    (isActive s.phase = true ∧ ∃ i hb slice, contents c = .frame i hb slice ∧
      performChunk c s = contribute slice (loadHeader (extract s.params.protocolLowNibble hb) s)) ∨
    (isActive s.phase = true ∧ ∃ i, contents c = .shortHeader i ∧
      performChunk c s = .next (enterFailed .malformedHeader (BitVec.ofNat 32 i) s)) ∨
    (isActive s.phase = true ∧ contents c = .noMarker ∧ s.hdrMatched = true ∧ performChunk c s = contribute c s) ∨
    (isActive s.phase = true ∧ contents c = .noMarker ∧ s.hdrMatched = false ∧
      performChunk c s = .next (emit .evNone none s)) := by
  rw [performChunk, onChunk_fits _ h]
  unfold chunkCase
  cases ha : isActive s.phase with
  | false => exact .inl ⟨rfl, rfl⟩
  | true =>
    rw [if_pos rfl]
    cases hc : contents c with
    | frame i hb slice => exact .inr (.inl ⟨rfl, i, hb, slice, rfl, rfl⟩)
    | shortHeader i => exact .inr (.inr (.inl ⟨rfl, i, rfl, rfl⟩))
    | noMarker =>
      cases hm : s.hdrMatched with
      | true => exact .inr (.inr (.inr (.inl ⟨rfl, rfl, rfl, rfl⟩)))
      | false => exact .inr (.inr (.inr (.inr ⟨rfl, rfl, rfl, rfl⟩)))

/-- Every next state of CHUNK(`c`), as one of six updates. -/
theorem performChunk_next {c : List Byte} {s t : State} (h : performChunk c s = .next t) :
    chunkFits s.params c = true ∧
    ((isActive s.phase = false ∧ t = emit .evNone none s) ∨
     (isActive s.phase = true ∧ contents c = .noMarker ∧ s.hdrMatched = false ∧ t = emit .evNone none s) ∨
     (isActive s.phase = true ∧ ∃ i, contents c = .shortHeader i ∧
       t = enterFailed .malformedHeader (BitVec.ofNat 32 i) s) ∨
     (isActive s.phase = true ∧ ∃ bs u,
       ((∃ i hb, contents c = .frame i hb bs ∧ u = loadHeader (extract s.params.protocolLowNibble hb) s) ∨
        (contents c = .noMarker ∧ s.hdrMatched = true ∧ bs = c ∧ u = s)) ∧ contribute bs u = .next t)) := by
  cases hf : chunkFits s.params c with
  | false => simp [performChunk, onChunk_refused _ hf] at h
  | true =>
    refine ⟨rfl, ?_⟩
    rcases performChunk_cases hf with ⟨ha, he⟩ | ⟨ha, i, hb, sl, hc, he⟩ | ⟨ha, i, hc, he⟩ | ⟨ha, hc, hm, he⟩ | ⟨ha, hc, hm, he⟩
    · rw [he] at h; cases h; exact .inl ⟨ha, rfl⟩
    · rw [he] at h; exact .inr (.inr (.inr ⟨ha, sl, _, .inl ⟨i, hb, hc, rfl⟩, h⟩))
    · rw [he] at h; cases h; exact .inr (.inr (.inl ⟨ha, i, hc, rfl⟩))
    · rw [he] at h; exact .inr (.inr (.inr ⟨ha, c, s, .inr ⟨hc, hm, rfl, rfl⟩, h⟩))
    · rw [he] at h; cases h; exact .inr (.inl ⟨ha, hc, hm, rfl⟩)

/-- The instructions that perform CHUNK, with the chunk each performs it on. -/
def chunkOf (low : Bool) : Instr → Option (List Byte)
  | .start => none
  | .cancel => none
  | .chunkIgnored c => some c
  | .chunkSync c => some c
  | .chunkMalformed c => some c
  | .chunkCont c => some c
  | .chunkNoise c => some c
  | .rdstat => none
  | .rdhdr => none
  | .rdpay _ => none
  | .frameHdr h slice => some (frameBytes low h slice)

/-- An instruction that performs CHUNK performs it on its chunk. -/
theorem exec_chunkOf {i : Instr} {s : State} {c : List Byte} (h : chunkOf s.params.protocolLowNibble i = some c) :
    exec i s = performChunk c s := by
  cases i <;> simp only [chunkOf, reduceCtorEq, Option.some.injEq] at h <;> subst h <;> simp

/-- Every next state of `exec`: START, CANCEL in an active phase, a CHUNK, or an operation that changes its outputs only. -/
theorem exec_next {i : Instr} {s t : State} (h : exec i s = .next t) :
    (i = .start ∧ t = openSession s) ∨
    (i = .cancel ∧ isActive s.phase = true ∧ t = enterFailed .timeout (s.bufLen.setWidth 32) s) ∨
    (∃ c, chunkOf s.params.protocolLowNibble i = some c ∧ performChunk c s = .next t) ∨
    (i ≠ .start ∧ (i = .cancel → isActive s.phase = false) ∧ chunkOf s.params.protocolLowNibble i = none ∧
      ∃ res, t = emit .evNone res s) := by
  cases i with
  | start => exact .inl ⟨rfl, by simpa [exec, execStart] using h.symm⟩
  | cancel =>
    cases ha : isActive s.phase with
    | true => exact .inr (.inl ⟨rfl, rfl, by simpa [exec, execCancel, ha] using h.symm⟩)
    | false => exact .inr (.inr (.inr ⟨by simp, by simp, rfl, none, by simpa [exec, execCancel, ha] using h.symm⟩))
  | rdstat => exact .inr (.inr (.inr ⟨by simp, by simp, rfl, _, by simpa [exec, execRdstat] using h.symm⟩))
  | rdhdr => exact .inr (.inr (.inr ⟨by simp, by simp, rfl, _, by simpa [exec, execRdhdr] using h.symm⟩))
  | rdpay a =>
    simp only [exec, execRdpay] at h
    split at h
    · exact .inr (.inr (.inr ⟨by simp, by simp, rfl, _, by simpa using h.symm⟩))
    · simp at h
  | chunkIgnored c => exact .inr (.inr (.inl ⟨c, rfl, by simpa using h⟩))
  | chunkSync c => exact .inr (.inr (.inl ⟨c, rfl, by simpa using h⟩))
  | chunkMalformed c => exact .inr (.inr (.inl ⟨c, rfl, by simpa using h⟩))
  | chunkCont c => exact .inr (.inr (.inl ⟨c, rfl, by simpa using h⟩))
  | chunkNoise c => exact .inr (.inr (.inl ⟨c, rfl, by simpa using h⟩))
  | frameHdr hd sl => exact .inr (.inr (.inl ⟨_, rfl, by simpa using h⟩))

end Sys2Proof.Machine
end

