-- ==== Sys2Proof/Laws/PerInstr.lean ====
section
/-! SUPPORT. A statement about every instruction of the table, one lemma for each constructor: the word the encoder gives
carries the row's `match` under the row's `mask`, and no other request bit (30_encoding.md R83, R89). -/

namespace Sys2Proof.Laws.EncodingCarriesTableMatch

open Sys2Proof Sys2Proof.Machine

/-- `mask` and `match` over `req` of the row, as spec/opcode_table.json has them (R89); the read operations constrain no
bit, and FRAME.HDR is a wire pattern without a request. -/
def tableMatch : Instr → Option (BitVec 3 × BitVec 3)
  | .start => some (0b010#3, 0b010#3)
  | .cancel => some (0b100#3, 0b100#3)
  | .chunkIgnored _ => some (0b001#3, 0b001#3)
  | .chunkSync _ => some (0b001#3, 0b001#3)
  | .chunkMalformed _ => some (0b001#3, 0b001#3)
  | .chunkCont _ => some (0b001#3, 0b001#3)
  | .chunkNoise _ => some (0b001#3, 0b001#3)
  | .rdstat => none
  | .rdhdr => none
  | .rdpay _ => none
  | .frameHdr _ _ => none

/-- The word of `i` is a request exactly where its row has a request code; then it carries the row's `match` and leaves
every bit outside `mask` at 0. -/
def Statement (i : Instr) : Prop :=
  ∀ p : Params,
    match encode p i with
    | .request req _ => ∃ mask code, tableMatch i = some (mask, code) ∧ req &&& mask = code ∧ req &&& ~~~mask = 0#3
    | .sampleStatus => tableMatch i = none
    | .sampleHeader => tableMatch i = none
    | .readAddress _ => tableMatch i = none
    | .wire _ => tableMatch i = none

theorem start : Statement .start := fun _ => ⟨_, _, rfl, rfl, rfl⟩
theorem cancel : Statement .cancel := fun _ => ⟨_, _, rfl, rfl, rfl⟩
theorem chunkIgnored (c : List Byte) : Statement (.chunkIgnored c) := fun _ => ⟨_, _, rfl, rfl, rfl⟩
theorem chunkSync (c : List Byte) : Statement (.chunkSync c) := fun _ => ⟨_, _, rfl, rfl, rfl⟩
theorem chunkMalformed (c : List Byte) : Statement (.chunkMalformed c) := fun _ => ⟨_, _, rfl, rfl, rfl⟩
theorem chunkCont (c : List Byte) : Statement (.chunkCont c) := fun _ => ⟨_, _, rfl, rfl, rfl⟩
theorem chunkNoise (c : List Byte) : Statement (.chunkNoise c) := fun _ => ⟨_, _, rfl, rfl, rfl⟩
theorem rdstat : Statement .rdstat := fun _ => rfl
theorem rdhdr : Statement .rdhdr := fun _ => rfl
theorem rdpay (a : Half) : Statement (.rdpay a) := fun _ => rfl
theorem frameHdr (h : Header) (slice : List Byte) : Statement (.frameHdr h slice) := fun _ => rfl

end Sys2Proof.Laws.EncodingCarriesTableMatch
end

