-- ==== Sys2Proof/Laws/Step.lean ====
section
/-! SUPPORT. What one step can do, said once. -/

namespace Sys2Proof.Machine

/-- A step does nothing, takes a reset or a clock cycle, passes an empty request, performs one operation, or refuses a
chunk longer than CHUNK_MAX. -/
theorem step_cases (s : State) :
    (s.inputs = [] ∧ step s = .next s) ∨
    (∃ more, s.inputs = .reset :: more ∧ step s = .next (hardReset { s with inputs := more })) ∨
    (∃ p more, s.inputs = .cycle p :: more ∧ step s = .next (pinCycle p { s with inputs := more })) ∨
    (∃ w more, s.inputs = .port w :: more ∧ step s = .next { s with inputs := more }) ∨
    (∃ w more i rest, s.inputs = .port w :: more ∧ decode (decodeContext s) w = .ok (i, rest) ∧
      step s = exec i { s with inputs := putBack rest more }) ∨
    (∃ w more, s.inputs = .port w :: more ∧ step s = .refused .chunkTooLong) := by
  unfold step fetch
  cases hi : s.inputs with
  | nil => exact .inl ⟨rfl, rfl⟩
  | cons x more =>
    cases x with
    | reset => exact .inr (.inl ⟨more, rfl, rfl⟩)
    | cycle p => exact .inr (.inr (.inl ⟨p, more, rfl, rfl⟩))
    | port w =>
      simp only [fetchWord]
      rw [show decodeContext { s with inputs := more } = decodeContext s from rfl]
      cases hd : decode (decodeContext s) w with
      | ok r => exact .inr (.inr (.inr (.inr (.inl ⟨w, more, r.1, r.2, rfl, hd, rfl⟩))))
      | error e =>
        cases e with
        | noOperation => exact .inr (.inr (.inr (.inl ⟨w, more, rfl, rfl⟩)))
        | chunkTooLong => exact .inr (.inr (.inr (.inr (.inr ⟨w, more, rfl, rfl⟩))))
        | noMarker => exact .inr (.inr (.inr (.inl ⟨w, more, rfl, rfl⟩)))
        | shortHeader => exact .inr (.inr (.inr (.inl ⟨w, more, rfl, rfl⟩)))

end Sys2Proof.Machine
end

