-- ==== Sys2Proof/Laws/Wire.lean ====
section
/-! SUPPORT. The wire functions, each characterised once: the header split, the contents of a chunk, the marker at the
front, and the fields of a shared byte. -/

namespace Sys2Proof.Machine

theorem mark_eq : mark = [0x7E#8, 0x7E#8, 0x7E#8, 0x7E#8] := rfl

@[simp] theorem length_hdrList (h : HdrBytes) : (hdrList h).length = 7 := rfl

@[simp] theorem length_frameBytes (low : Bool) (h : Header) (slice : List Byte) :
    (frameBytes low h slice).length = 11 + slice.length := by
  simp [frameBytes, mark_eq]; omega

/-- The split succeeds exactly on seven header bytes and a slice (R100). -/
theorem splitHeader_eq_some_iff (l : List Byte) (h : HdrBytes) (slice : List Byte) :
    splitHeader l = some (h, slice) ↔ l = hdrList h ++ slice := by
  constructor
  · intro he
    unfold splitHeader at he
    split at he
    · simp only [Option.some.injEq, Prod.mk.injEq] at he
      obtain ⟨rfl, rfl⟩ := he
      rfl
    · cases he
  · rintro rfl; rfl

/-- It fails exactly where fewer than seven bytes are left (R106). -/
theorem splitHeader_eq_none_iff (l : List Byte) : splitHeader l = none ↔ l.length < 7 := by
  unfold splitHeader
  split
  · simp
  · rename_i hl
    simp only [true_iff]
    by_contra hlen
    match l, hlen with
    | h0 :: h1 :: h2 :: h3 :: h4 :: h5 :: h6 :: slice, _ => exact hl h0 h1 h2 h3 h4 h5 h6 slice rfl
    | [], hlen => exact hlen (by simp)
    | [_], hlen => exact hlen (by simp)
    | [_, _], hlen => exact hlen (by simp)
    | [_, _, _], hlen => exact hlen (by simp)
    | [_, _, _, _], hlen => exact hlen (by simp)
    | [_, _, _, _, _], hlen => exact hlen (by simp)
    | [_, _, _, _, _, _], hlen => exact hlen (by simp)

theorem contents_noMarker_iff (c : List Byte) : contents c = .noMarker ↔ findMarker c = none := by
  unfold contents
  split
  · simp [*]
  · split <;> simp [*]

theorem contents_shortHeader_iff (c : List Byte) (i : Nat) :
    contents c = .shortHeader i ↔ findMarker c = some i ∧ (c.drop (i + 4)).length < 7 := by
  unfold contents
  split
  · simp [*]
  · rename_i j hj
    split
    · rename_i hs
      rw [splitHeader_eq_none_iff] at hs
      simp only [Contents.shortHeader.injEq, hj, Option.some.injEq]
      constructor
      · rintro rfl; exact ⟨rfl, hs⟩
      · exact fun h => h.1
    · rename_i h slice hs
      simp only [reduceCtorEq, hj, Option.some.injEq, false_iff, not_and]
      rintro rfl hlt
      have := (splitHeader_eq_none_iff _).2 hlt
      simp [markerLen] at hs
      rw [this] at hs; cases hs

theorem contents_frame_iff (c : List Byte) (i : Nat) (h : HdrBytes) (slice : List Byte) :
    contents c = .frame i h slice ↔ findMarker c = some i ∧ c.drop (i + 4) = hdrList h ++ slice := by
  rw [← splitHeader_eq_some_iff]
  unfold contents
  split
  · simp [*]
  · rename_i j hj
    split
    · rename_i hs
      simp only [reduceCtorEq, hj, Option.some.injEq, false_iff, not_and]
      rintro rfl hs'
      simp [markerLen] at hs
      rw [hs'] at hs; cases hs
    · rename_i h' slice' hs
      simp only [Contents.frame.injEq, hj, Option.some.injEq]
      constructor
      · rintro ⟨rfl, rfl, rfl⟩; exact ⟨rfl, hs⟩
      · rintro ⟨rfl, hs'⟩
        simp only [markerLen] at hs
        rw [hs'] at hs
        simp only [Option.some.injEq, Prod.mk.injEq] at hs
        exact ⟨rfl, hs.1.symm, hs.2.symm⟩

/-- The marker at the front of a chunk is found at index 0 (R102). -/
theorem findMarker_mark_append (l : List Byte) : findMarker (mark ++ l) = some 0 := by
  simp [mark_eq, findMarker, startsWithMark, markerLen]

/-- The contents of a wire unit (R71, R88). -/
theorem contents_frameBytes (low : Bool) (h : Header) (slice : List Byte) :
    contents (frameBytes low h slice) = .frame 0 (hdrBytes low h) slice := by
  rw [contents_frame_iff]
  constructor
  · rw [frameBytes, List.append_assoc]; exact findMarker_mark_append _
  · simp [frameBytes, mark_eq]

end Sys2Proof.Machine
end

