-- ==== Sys2Proof/Tests/Slice0.lean ====
section
/-! SUPPORT. Tests. Expected results are those of 95_test_vectors.md (the vector's number stands in each docstring) or
are worked out by hand from the rule named. Then one witness for each obligation that has hypotheses. -/

namespace Sys2Proof.Machine

/-! ## Small states -/

/-- The sample header of 95_test_vectors.md: `10 00 31 12 0B zz 00`. -/
def sampleHeader (z : Half) : Header :=
  { protocol := 0#4, target := 0x001#12, targetMode := 1#4, source := 0x123#12, cmd := 0x0B#8, size := z }

/-- `H0`: the state after any START. -/
def huntState : State := { State.reset with phase := .hunt }

/-- COLLECT, sample header, `size` = 6, `remaining` = 4, `buf_len` = 2, `BUF` = AA BB (program P2 after line 4). -/
def collectState : State :=
  { State.reset with
    phase := .collect, hdrMatched := true, hdr := sampleHeader 6#16, remaining := 4#16, bufLen := 2#16,
    buf := [(0, 0xAA#8), (1, 0xBB#8)] }

/-- DONE, sample header, `size` = 6, `BUF` = AA BB CC DD EE FF (the end of program P2). -/
def doneState : State :=
  { State.reset with
    phase := .done, hdrMatched := true, hdr := sampleHeader 6#16, bufLen := 6#16,
    buf := [(0, 0xAA#8), (1, 0xBB#8), (2, 0xCC#8), (3, 0xDD#8), (4, 0xEE#8), (5, 0xFF#8)] }

/-- FAILED by over-delivery, `size` = 6, `remaining` = 3, `buf_len` = 3 (program P3 after line 4). -/
def failedState : State :=
  { State.reset with
    phase := .failed, hdrMatched := true, hdr := sampleHeader 6#16, remaining := 3#16, bufLen := 3#16,
    errCode := .overDelivery, errOffset := 6#32, buf := [(0, 0xAA#8), (1, 0xBB#8), (2, 0xCC#8)] }

/-- A state with a given CHUNK_MAX. -/
def withMax (n : Offset) (s : State) : State := { s with params := { s.params with chunkMax := n } }

/-- What is looked at of an answer. -/
def seen {α : Type} (f : State → α) : Result → Option α
  | .next t => some (f t)
  | .fault _ => none
  | .refused _ => none

/-- The answer is this refusal. -/
def refusedBy (r : Refusal) : Result → Bool
  | .next _ => false
  | .fault _ => false
  | .refused r' => decide (r' = r)

/-- Phase, counters, error registers and event. -/
structure Summary where
  phase     : Phase
  remaining : Half
  bufLen    : Half
  errCode   : ErrCode
  errOffset : Offset
  event     : Event
deriving DecidableEq, Repr

/-- The summary of a state. -/
def summary (s : State) : Summary := ⟨s.phase, s.remaining, s.bufLen, s.errCode, s.errOffset, s.out.event⟩

/-! ## WellFormed refuses an ill-formed term, for each of its checks -/

/-- A chunk one byte longer than CHUNK_MAX, for every row that carries one. -/
theorem test_wellFormed_length :
    (Instr.chunkIgnored [0#8, 0#8]).wellFormed { defaultParams with chunkMax := 1#32 } = false ∧
    (Instr.chunkNoise [0#8, 0#8]).wellFormed { defaultParams with chunkMax := 1#32 } = false ∧
    (Instr.chunkCont [0#8, 0#8]).wellFormed { defaultParams with chunkMax := 1#32 } = false ∧
    (Instr.chunkMalformed mark).wellFormed { defaultParams with chunkMax := 3#32 } = false ∧
    (Instr.chunkSync (mark ++ List.replicate 7 0#8)).wellFormed { defaultParams with chunkMax := 10#32 } = false ∧
    (Instr.frameHdr zeroHeader []).wellFormed { defaultParams with chunkMax := 10#32 } = false := by decide

/-- CHUNK.SYNC needs a marker, and seven bytes after it. -/
theorem test_wellFormed_sync :
    (Instr.chunkSync [0#8]).wellFormed defaultParams = false ∧
    (Instr.chunkSync (mark ++ List.replicate 6 0#8)).wellFormed defaultParams = false ∧
    (Instr.chunkSync (mark ++ List.replicate 7 0#8)).wellFormed defaultParams = true := by decide

/-- CHUNK.MALFORMED needs a marker, and fewer than seven bytes after it. -/
theorem test_wellFormed_malformed :
    (Instr.chunkMalformed [0#8]).wellFormed defaultParams = false ∧
    (Instr.chunkMalformed (mark ++ List.replicate 7 0#8)).wellFormed defaultParams = false ∧
    (Instr.chunkMalformed (mark ++ List.replicate 6 0#8)).wellFormed defaultParams = true := by decide

/-- CHUNK.CONT and CHUNK.NOISE have no marker in their chunk. -/
theorem test_wellFormed_noMarker :
    (Instr.chunkCont mark).wellFormed defaultParams = false ∧
    (Instr.chunkCont (mark ++ List.replicate 7 0#8)).wellFormed defaultParams = false ∧
    (Instr.chunkNoise mark).wellFormed defaultParams = false ∧
    (Instr.chunkNoise (mark ++ List.replicate 7 0#8)).wellFormed defaultParams = false := by decide

/-! ## Decoding: words written out from the tables -/

/-- START, CANCEL and the empty request (R83, R89). -/
theorem test_decode_controller :
    decode resetContext (.request 0b010#3 []) = .ok (.start, none) ∧
    decode resetContext (.request 0b100#3 []) = .ok (.cancel, none) ∧
    decode resetContext (.request 0b000#3 []) = .error .noOperation := by decide

/-- Several bits: CANCEL first, then START, then CHUNK (R83). -/
theorem test_decode_order :
    decode resetContext (.request 0b111#3 [0#8]) = .ok (.cancel, some (.request 0b011#3 [0#8])) ∧
    decode resetContext (.request 0b011#3 [0#8]) = .ok (.start, some (.request 0b001#3 [0#8])) ∧
    decode resetContext (.request 0b110#3 []) = .ok (.cancel, some (.request 0b010#3 [])) := by decide

/-- `req` = 0b001 in each context that selects another CHUNK row (V3.1, V3.2, V3.5, V3.4, program P2 line 5). -/
theorem test_decode_chunk_rows :
    decode resetContext (.request 0b001#3 [0x7E#8]) = .ok (.chunkIgnored [0x7E#8], none) ∧
    decode (decodeContext huntState) (.request 0b001#3 [0x7E#8, 0x7E#8, 0x7E#8]) =
      .ok (.chunkNoise [0x7E#8, 0x7E#8, 0x7E#8], none) ∧
    decode (decodeContext collectState) (.request 0b001#3 [0xCC#8]) = .ok (.chunkCont [0xCC#8], none) ∧
    decode (decodeContext huntState)
        (.request 0b001#3 [0x7E#8, 0x7E#8, 0x7E#8, 0x7E#8, 0x10#8, 0x00#8, 0x31#8, 0x12#8, 0x0B#8, 0x05#8]) =
      .ok (.chunkMalformed [0x7E#8, 0x7E#8, 0x7E#8, 0x7E#8, 0x10#8, 0x00#8, 0x31#8, 0x12#8, 0x0B#8, 0x05#8], none) ∧
    decode (decodeContext huntState)
        (.request 0b001#3 [0x7E#8, 0x7E#8, 0x7E#8, 0x7E#8, 0x10#8, 0x00#8, 0x31#8, 0x12#8, 0x0B#8, 0x00#8, 0x00#8]) =
      .ok (.chunkSync [0x7E#8, 0x7E#8, 0x7E#8, 0x7E#8, 0x10#8, 0x00#8, 0x31#8, 0x12#8, 0x0B#8, 0x00#8, 0x00#8], none) := by
  decide

/-- The read operations are the pin activity of R83. -/
theorem test_decode_reads :
    decode resetContext .sampleStatus = .ok (.rdstat, none) ∧ decode resetContext .sampleHeader = .ok (.rdhdr, none) ∧
    decode resetContext (.readAddress 0xFFFE#16) = .ok (.rdpay 0xFFFE#16, none) := by decide

/-- The wire pattern of R89, bit by bit: `F0 FF 03 00 3D 00 00` behind the marker (V1.5), then one payload byte. -/
theorem test_decode_frame :
    decode resetContext (.wire [0b01111110#8, 0b01111110#8, 0b01111110#8, 0b01111110#8, 0b11110000#8, 0b11111111#8,
      0b00000011#8, 0b00000000#8, 0b00111101#8, 0b00000000#8, 0b00000000#8, 0b10101010#8]) =
      .ok (.frameHdr { protocol := 0#4, target := 0xFFF#12, targetMode := 3#4, source := 0#12, cmd := 0x3D#8,
                       size := 0#16 } [0xAA#8], none) := by decide

/-- Wire bytes that are no frame are a chunk. -/
theorem test_decode_wire_chunk :
    decode (decodeContext huntState) (.wire [0x7E#8, 0x7E#8]) = .ok (.chunkNoise [0x7E#8, 0x7E#8], none) := by decide

/-- A chunk longer than CHUNK_MAX is refused by name (R11, U4). -/
theorem test_decode_too_long :
    decode { resetContext with params := { defaultParams with chunkMax := 1#32 } } (.request 0b001#3 [0#8, 0#8]) =
      .error .chunkTooLong := by decide

/-- V1.3 in both layouts. -/
theorem test_extract_V1_3 :
    extract true ⟨0xC2#8, 0xAB#8, 0xF5#8, 0xDE#8, 0xFF#8, 0x02#8, 0x01#8⟩ =
      { protocol := 2#4, target := 0xABC#12, targetMode := 5#4, source := 0xDEF#12, cmd := 0xFF#8, size := 258#16 } ∧
    extract false ⟨0xC2#8, 0xAB#8, 0xF5#8, 0xDE#8, 0xFF#8, 0x02#8, 0x01#8⟩ =
      { protocol := 12#4, target := 0xAB2#12, targetMode := 15#4, source := 0xDE5#12, cmd := 0xFF#8,
        size := 258#16 } := by decide

/-- V1.8, V1.9, V1.15: the top bit of `h[1]`, the low bit of `h[3]`, the byte order of `size`. -/
theorem test_extract_V1_8 :
    (extract true ⟨0#8, 0x80#8, 0#8, 0x01#8, 0#8, 0#8, 0x01#8⟩).target = 0x800#12 ∧
    (extract true ⟨0#8, 0x80#8, 0#8, 0x01#8, 0#8, 0#8, 0x01#8⟩).source = 0x010#12 ∧
    (extract true ⟨0#8, 0x80#8, 0#8, 0x01#8, 0#8, 0#8, 0x01#8⟩).size = 256#16 ∧
    (extract false ⟨0x24#8, 0#8, 0x56#8, 0#8, 0x0C#8, 2#8, 0#8⟩).source = 0x006#12 := by decide

/-- The composition examples after V1.15 (R88). -/
theorem test_compose :
    hdrBytes true { protocol := 2#4, target := 0xABC#12, targetMode := 5#4, source := 0xDEF#12, cmd := 0xFF#8, size := 258#16 } =
      ⟨0xC2#8, 0xAB#8, 0xF5#8, 0xDE#8, 0xFF#8, 0x02#8, 0x01#8⟩ ∧
    hdrBytes true { protocol := 4#4, target := 0x002#12, targetMode := 6#4, source := 0x005#12, cmd := 0x0C#8, size := 2#16 } =
      ⟨0x24#8, 0x00#8, 0x56#8, 0x00#8, 0x0C#8, 0x02#8, 0x00#8⟩ := by decide

/-- V2.3, V2.6, V2.7, V2.9, V2.12, V2.13. -/
theorem test_findMarker :
    findMarker [0x7E#8, 0x7E#8, 0x7E#8] = none ∧
    findMarker [0x7E#8, 0x7E#8, 0x00#8, 0x7E#8, 0x7E#8, 0x7E#8, 0x7E#8] = some 3 ∧
    findMarker [0x7E#8, 0x7E#8, 0x7E#8, 0x00#8, 0x7E#8, 0x7E#8, 0x7E#8] = none ∧
    findMarker [0x7E#8, 0x7E#8, 0x7E#8, 0x7E#8, 0x7E#8] = some 0 ∧
    findMarker [0x7F#8, 0x7E#8, 0x7E#8, 0x7E#8, 0x7D#8, 0x7E#8, 0x7E#8, 0x7E#8, 0x7E#8] = some 5 ∧
    findMarker [0xFE#8, 0x7E#8, 0x7E#8, 0x7E#8, 0x7E#8] = some 1 := by decide

/-! ## One step of each instruction -/

/-- V5.3: START from FAILED gives `H0`. -/
theorem test_start_V5_3 :
    seen summary (exec .start failedState) = some ⟨.hunt, 0#16, 0#16, .none, 0#32, .evNone⟩ ∧
    seen (fun t => (t.hdrMatched, t.hdr)) (exec .start failedState) = some (false, zeroHeader) := by decide

/-- V5.5: CANCEL in COLLECT. -/
theorem test_cancel_V5_5 :
    seen summary (exec .cancel collectState) = some ⟨.failed, 4#16, 2#16, .timeout, 2#32, .evErr .timeout 2#32⟩ ∧
    seen (fun t => (t.hdrMatched, t.hdr)) (exec .cancel collectState) = some (true, sampleHeader 6#16) := by decide

/-- V5.7: a late CANCEL does not replace a success. -/
theorem test_cancel_V5_7 :
    seen summary (exec .cancel doneState) = some ⟨.done, 0#16, 6#16, .none, 0#32, .evNone⟩ := by decide

/-- V3.1: a frame in IDLE is lost. -/
theorem test_ignored_V3_1 :
    seen summary (exec (.chunkIgnored (mark ++ [0x10#8, 0#8, 0x31#8, 0x12#8, 0x0B#8, 0#8, 0#8])) State.reset) =
      some ⟨.idle, 0#16, 0#16, .none, 0#32, .evNone⟩ := by decide

/-- The example of R105: marker at index 1, slice `AA BB`. -/
theorem test_sync_R105 :
    seen (fun t => (summary t, t.hdr, t.buf))
      (exec (.chunkSync ([0x13#8] ++ mark ++ [0x10#8, 0#8, 0x31#8, 0x12#8, 0x0B#8, 6#8, 0#8, 0xAA#8, 0xBB#8])) huntState) =
      some (⟨.collect, 4#16, 2#16, .none, 0#32, .evNone⟩, sampleHeader 6#16, [(0, 0xAA#8), (1, 0xBB#8)]) := by decide

/-- V3.21: the slice is longer than `size`; the header is kept, nothing is stored. -/
theorem test_sync_V3_21 :
    seen (fun t => (summary t, t.hdr, t.buf))
      (exec (.chunkSync (mark ++ [0x10#8, 0#8, 0x31#8, 0x12#8, 0x0B#8, 3#8, 0#8, 1#8, 2#8, 3#8, 4#8])) huntState) =
      some (⟨.failed, 3#16, 0#16, .overDelivery, 3#32, .evErr .overDelivery 3#32⟩, sampleHeader 3#16, []) := by decide

/-- V3.6: the marker ends the chunk. -/
theorem test_malformed_V3_6 :
    seen summary (exec (.chunkMalformed ([0#8, 1#8, 2#8] ++ mark)) huntState) =
      some ⟨.failed, 0#16, 0#16, .malformedHeader, 3#32, .evErr .malformedHeader 3#32⟩ := by decide

/-- The variant of P5: a short header in COLLECT keeps the header in progress. -/
theorem test_malformed_P5 :
    seen (fun t => (summary t, t.hdr)) (exec (.chunkMalformed ([0xCC#8] ++ mark ++ [0x24#8, 0#8])) collectState) =
      some (⟨.failed, 4#16, 2#16, .malformedHeader, 1#32, .evErr .malformedHeader 1#32⟩, sampleHeader 6#16) := by decide

/-- The end of P2: the last owed bytes complete the payload; V4.6. -/
theorem test_cont_complete :
    seen summary (exec (.chunkCont [0xCC#8, 0xDD#8, 0xEE#8, 0xFF#8]) collectState) =
      some ⟨.done, 0#16, 6#16, .none, 0#32,
        .evDone (sampleHeader 6#16) [0xAA#8, 0xBB#8, 0xCC#8, 0xDD#8, 0xEE#8, 0xFF#8]⟩ := by decide

/-- V4.7: one byte more than owed; nothing is stored. -/
theorem test_cont_overDelivery :
    seen (fun t => (summary t, t.buf)) (exec (.chunkCont [1#8, 2#8, 3#8, 4#8, 5#8]) collectState) =
      some (⟨.failed, 4#16, 2#16, .overDelivery, 6#32, .evErr .overDelivery 6#32⟩, [(0, 0xAA#8), (1, 0xBB#8)]) := by decide

/-- The example of R108. -/
theorem test_noise_R108 :
    seen summary (exec (.chunkNoise [0#8, 0x7E#8, 0x7E#8, 0x55#8]) huntState) =
      some ⟨.hunt, 0#16, 0#16, .none, 0#32, .evNone⟩ := by decide

/-- V6.3. -/
theorem test_rdstat_V6_3 :
    seen (fun t => t.out.result) (exec .rdstat failedState) =
      some (some (.status { status := 0x2C#8, remaining := 3#16, bufLen := 3#16, errOffset := 6#32 })) := by decide

/-- V6.5. -/
theorem test_rdhdr_V6_5 :
    seen (fun t => t.out.result) (exec .rdhdr doneState) = some (some (.header (sampleHeader 6#16))) := by decide

/-- V6.6. -/
theorem test_rdpay_V6_6 :
    seen (fun t => t.out.result) (exec (.rdpay 5#16) doneState) = some (some (.payload 0xFF#8)) ∧
    seen (fun t => t.out.result) (exec (.rdpay 0#16) doneState) = some (some (.payload 0xAA#8)) := by decide

/-- V6.7, V6.8, V6.9: outside the window. -/
theorem test_rdpay_refused :
    refusedBy .outsideReadWindow (exec (.rdpay 6#16) doneState) = true ∧
    refusedBy .outsideReadWindow (exec (.rdpay 0xFFFF#16) doneState) = true ∧
    refusedBy .outsideReadWindow (exec (.rdpay 0#16) collectState) = true ∧
    refusedBy .outsideReadWindow (exec (.rdpay 0#16) failedState) = true := by decide

/-- The request frame `F0 FF 03 00 3D 00 00` read as a header (V1.5). -/
def requestHeader : Header :=
  { protocol := 0#4, target := 0xFFF#12, targetMode := 3#4, source := 0#12, cmd := 0x3D#8, size := 0#16 }

/-- S1.b: the request frame's header behind a marker, size 0, completes at once. -/
theorem test_frame_S1_b :
    seen summary (exec (.frameHdr requestHeader []) huntState) =
      some ⟨.done, 0#16, 0#16, .none, 0#32, .evDone requestHeader []⟩ := by decide

/-- Line 3 of P1 as a frame. -/
theorem test_frame_P1 :
    seen (fun t => (t.phase, t.bufLen, t.hdr)) (exec (.frameHdr (sampleHeader 5#16) [1#8, 2#8, 3#8, 4#8, 5#8]) huntState) =
      some ⟨.done, 5#16, sampleHeader 5#16⟩ := by decide

/-! ## Steps: the ports, reset, one clock cycle -/

/-- `req` = 0b110 in COLLECT: the first step is CANCEL, START stays requested (the same-cycle list after V5.10). -/
theorem test_step_order :
    seen (fun t => (t.phase, t.inputs)) (step { collectState with inputs := [.port (.request 0b110#3 [])] }) =
      some (.failed, [.port (.request 0b010#3 [])]) := by decide

/-- V5.10: reset from any state, here DONE. -/
theorem test_step_reset :
    seen summary (step { doneState with inputs := [.reset] }) = some ⟨.idle, 0#16, 0#16, .none, 0#32, .evNone⟩ := by decide

/-- The host's fetch word runs as the next instruction (log entry 1). -/
theorem test_withFetchWord :
    seen (fun t => t.phase) (step (State.reset.withFetchWord 8 0b010)) = some .hunt := by decide

/-- R42: a `cancel` pulse while a chunk is under way drops the chunk: its last byte commits nothing. -/
theorem test_cycle_drop :
    seen (fun t => (t.staged, t.drop, t.inputs))
      (step { collectState with staged := [0xCC#8], inputs := [.cycle { (byteCycle 0xDD#8 false) with cancel := true }] }) =
      some ([0xCC#8, 0xDD#8], true, [.port (.request 0b100#3 [])]) ∧
    seen (fun t => (t.staged, t.drop, t.inputs))
      (step { collectState with staged := [0xCC#8], drop := true, inputs := [.cycle (byteCycle 0xDD#8 true)] }) =
      some ([], false, [.port (.request 0b000#3 [])]) := by decide

/-- R42, D31: a pulse in the cycle of the chunk's first byte is ordered before the chunk, which is kept. -/
theorem test_cycle_first_byte :
    seen (fun t => t.inputs) (step { State.reset with inputs := [.cycle { (byteCycle 0x00#8 true) with start := true }] }) =
      some [.port (.request 0b011#3 [0x00#8])] := by decide

/-- The views of the staging state (R41): index, run of `0x7E`, header bytes seen, tentative address. -/
theorem test_staging_views :
    stagingIndex { huntState with staged := mark ++ [1#8, 2#8] } = 6 ∧
    stagingRun { huntState with staged := [0#8, 0x7E#8, 0x7E#8] } = 2 ∧
    stagingHeader { huntState with staged := mark ++ [1#8, 2#8] } = [1#8, 2#8] ∧
    stagingAddress { huntState with staged := mark ++ List.replicate 9 0#8 } = 2 := by decide

/-- R86, R87: a line of the notation, its comment, and a line that is none. -/
theorem test_text :
    assembleLine true "CHUNK 7E*3 MARK ; note".toList =
      .ok (some (.port (.request 0b001#3 [0x7E#8, 0x7E#8, 0x7E#8, 0x7E#8, 0x7E#8, 0x7E#8, 0x7E#8]))) ∧
    assembleLine true "; nothing".toList = .ok none ∧ assembleLine true "RDPAY 10".toList = .ok (some (.port (.readAddress 10#16))) ∧
    assembleLine true "CHUNK 7".toList = .error .badByte := by decide

/-! ## Witnesses: for each obligation, states and operands that meet its hypotheses together -/

/-- The invariant holds at each of the five phases. -/
theorem inv_hunt : huntState.Inv := ⟨by decide, by decide, by decide, trivial⟩
theorem inv_collect : collectState.Inv := ⟨by decide, by decide, by decide, trivial⟩
theorem inv_done : doneState.Inv := ⟨by decide, by decide, by decide, trivial⟩
theorem inv_failed : failedState.Inv := ⟨by decide, by decide, by decide, trivial⟩
theorem inv_idle : State.reset.Inv := ⟨by decide, by decide, by decide, trivial⟩

theorem witness_CancelFailsActiveSession : huntState.phase = .hunt ∧ collectState.phase = .collect := ⟨rfl, rfl⟩

theorem witness_CancelKeepsOutcome :
    State.reset.phase = .idle ∧ doneState.phase = .done ∧ failedState.phase = .failed := ⟨rfl, rfl, rfl⟩

theorem witness_OnlyChunkWritesTheBuffer :
    (∃ t, exec .start doneState = .next t) ∧ (∃ t, exec .cancel collectState = .next t) ∧
    (∃ t, exec .rdstat doneState = .next t) ∧ (∃ t, exec .rdhdr doneState = .next t) ∧
    ∃ t, exec (.rdpay 5#16) doneState = .next t := ⟨⟨_, rfl⟩, ⟨_, rfl⟩, ⟨_, rfl⟩, ⟨_, rfl⟩, ⟨_, rfl⟩⟩

/-- The longest chunk allowed (CHUNK_MAX = 1) in each inactive phase. -/
theorem witness_ChunkIgnoredChangesNothing :
    State.reset.phase = .idle ∧ doneState.phase = .done ∧ failedState.phase = .failed ∧
    [0#8].length ≤ (withMax 1#32 State.reset).params.chunkMax.toNat := by decide

/-- A chunk of exactly CHUNK_MAX = 13 bytes, marker at 1, slice of one byte, in HUNT and in COLLECT. -/
theorem witness_ChunkSync :
    (withMax 13#32 huntState).phase = .hunt ∧ (withMax 13#32 collectState).phase = .collect ∧
    ([0x13#8] ++ mark ++ [1#8, 2#8, 3#8, 4#8, 5#8, 6#8, 0#8] ++ [9#8]).length ≤ (withMax 13#32 huntState).params.chunkMax.toNat ∧
    findMarker ([0x13#8] ++ mark ++ [1#8, 2#8, 3#8, 4#8, 5#8, 6#8, 0#8] ++ [9#8]) = some 1 ∧
    ([0x13#8] ++ mark ++ [1#8, 2#8, 3#8, 4#8, 5#8, 6#8, 0#8] ++ [9#8]).drop (1 + 4) =
      hdrList ⟨1#8, 2#8, 3#8, 4#8, 5#8, 6#8, 0#8⟩ ++ [9#8] := by decide

/-- Six bytes after the marker, and none. -/
theorem witness_ChunkMalformedFails :
    huntState.phase = .hunt ∧ collectState.phase = .collect ∧
    findMarker (mark ++ List.replicate 6 0#8) = some 0 ∧ (mark ++ List.replicate 6 0#8).length < 0 + 11 ∧
    findMarker ([0#8, 1#8] ++ mark) = some 2 ∧ ([0#8, 1#8] ++ mark).length < 2 + 11 ∧
    (mark ++ List.replicate 6 0#8).length ≤ huntState.params.chunkMax.toNat := by decide

/-- One byte less than owed, exactly what is owed, one byte more. -/
theorem witness_ChunkCont :
    collectState.phase = .collect ∧ collectState.hdrMatched = true ∧
    collectState.bufLen.toNat + collectState.remaining.toNat = collectState.hdr.size.toNat ∧
    [1#8, 2#8, 3#8, 4#8, 5#8].length ≤ collectState.params.chunkMax.toNat ∧
    findMarker [1#8, 2#8, 3#8] = none ∧ [1#8, 2#8, 3#8].length < collectState.remaining.toNat ∧
    findMarker [1#8, 2#8, 3#8, 4#8] = none ∧ [1#8, 2#8, 3#8, 4#8].length = collectState.remaining.toNat ∧
    findMarker [1#8, 2#8, 3#8, 4#8, 5#8] = none ∧ collectState.remaining.toNat < [1#8, 2#8, 3#8, 4#8, 5#8].length := by decide

theorem witness_ChunkNoise :
    huntState.phase = .hunt ∧ huntState.hdrMatched = false ∧ findMarker [0x7E#8, 0x7E#8, 0x7E#8] = none ∧
    [0x7E#8, 0x7E#8, 0x7E#8].length ≤ (withMax 3#32 huntState).params.chunkMax.toNat := by decide

/-- A frame of exactly CHUNK_MAX bytes; each of the three relations of slice and size. -/
theorem witness_FrameHdrIsReceived :
    11 + [9#8].length ≤ (withMax 12#32 huntState).params.chunkMax.toNat ∧ (withMax 12#32 huntState).phase = .hunt ∧
    (withMax 12#32 State.reset).phase = .idle ∧
    [9#8].length < (sampleHeader 2#16).size.toNat ∧ [9#8].length = (sampleHeader 1#16).size.toNat ∧
    (sampleHeader 0#16).size.toNat < [9#8].length := by decide

/-- One byte too many, for a chunk and for a frame. -/
theorem witness_TooLongChunkIsRefused :
    (withMax 1#32 huntState).params.chunkMax.toNat < [0#8, 0#8].length ∧
    (withMax 1#32 huntState).params.chunkMax.toNat < 11 + ([] : List Byte).length := by decide

/-- `00 7E 7E` and `7E 7E 10` (V3.3), in HUNT, and in COLLECT with four bytes owed. -/
theorem witness_MarkerCutByChunkBoundaryIsUnseen :
    findMarker [0#8, 0x7E#8, 0x7E#8] = none ∧ findMarker [0x7E#8, 0x7E#8, 0x10#8] = none ∧
    findMarker ([0#8, 0x7E#8, 0x7E#8] ++ [0x7E#8, 0x7E#8, 0x10#8]) ≠ none ∧
    [0#8, 0x7E#8, 0x7E#8].length ≤ huntState.params.chunkMax.toNat ∧ huntState.Inv ∧ huntState.phase = .hunt ∧
    collectState.Inv ∧ collectState.phase = .collect ∧
    ∃ t, contribute [0#8, 0x7E#8, 0x7E#8] collectState = .next t ∧ t.phase = .collect :=
  ⟨by decide, by decide, by decide, by decide, inv_hunt, rfl, inv_collect, rfl, _, rfl, by decide⟩

/-- V3.9: a run of five and six further bytes, the shortest chunk the premise allows. -/
theorem witness_FifthMarkerByteIsHeader :
    huntState.phase = .hunt ∧ huntState.params.protocolLowNibble = true ∧
    findMarker (mark ++ [0x7E#8, 0x70#8, 0x10#8, 0x31#8, 0x12#8, 0x0B#8, 0#8]) = some 0 ∧
    (mark ++ [0x7E#8, 0x70#8, 0x10#8, 0x31#8, 0x12#8, 0x0B#8, 0#8])[0 + 4]? = some 0x7E#8 ∧
    0 + 11 ≤ (mark ++ [0x7E#8, 0x70#8, 0x10#8, 0x31#8, 0x12#8, 0x0B#8, 0#8]).length ∧
    ∃ t, exec (.chunkSync (mark ++ [0x7E#8, 0x70#8, 0x10#8, 0x31#8, 0x12#8, 0x0B#8, 0#8])) huntState = .next t :=
  ⟨rfl, rfl, by decide, by decide, by decide, _, rfl⟩

theorem witness_EmptyChunkChangesNothing : huntState.Inv ∧ collectState.Inv ∧ doneState.Inv := ⟨inv_hunt, inv_collect, inv_done⟩

/-- The re-synchronisation of P5, line 3. -/
theorem witness_ResynchronisationStartsAfresh :
    collectState.Inv ∧ collectState.phase = .collect ∧
    findMarker ([0xCC#8] ++ mark ++ [0x24#8, 0#8, 0x56#8, 0#8, 0x0C#8, 2#8, 0#8, 0xDE#8]) = some 1 ∧
    1 + 11 ≤ ([0xCC#8] ++ mark ++ [0x24#8, 0#8, 0x56#8, 0#8, 0x0C#8, 2#8, 0#8, 0xDE#8]).length ∧
    (∃ u, exec .start collectState = .next u) ∧
    ∃ t, exec (.chunkSync ([0xCC#8] ++ mark ++ [0x24#8, 0#8, 0x56#8, 0#8, 0x0C#8, 2#8, 0#8, 0xDE#8])) collectState = .next t :=
  ⟨inv_collect, rfl, by decide, by decide, ⟨_, rfl⟩, _, rfl⟩

/-- V4.5, V4.6, V4.7: the three clauses at their boundaries are those of witness_ChunkCont. -/
theorem witness_ContributeFollowsItsProcedure :
    collectState.hdrMatched = true ∧
    collectState.bufLen.toNat + collectState.remaining.toNat = collectState.hdr.size.toNat := by decide

/-- V4.9: six bytes in pieces of 2, 1, 0 and 3. -/
theorem witness_ContributeIsSplitInvariant :
    (loadHeader (sampleHeader 6#16) huntState).hdrMatched = true ∧
    (loadHeader (sampleHeader 6#16) huntState).bufLen = 0#16 ∧
    (loadHeader (sampleHeader 6#16) huntState).remaining = (loadHeader (sampleHeader 6#16) huntState).hdr.size ∧
    ([[1#8, 2#8], [3#8], []] ++ [[4#8, 5#8, 6#8]] : List (List Byte)).flatten.length =
      (loadHeader (sampleHeader 6#16) huntState).hdr.size.toNat ∧
    (([[1#8, 2#8], [3#8], []] : List (List Byte)) ≠ [] → ([4#8, 5#8, 6#8] : List Byte) ≠ []) := by decide

/-- P2's frame: two bytes with the header, then 1, 0 and 3 (CHUNK_MAX exactly the whole frame's 17 bytes). -/
theorem witness_BlockIsSplitInvariant :
    (withMax 17#32 huntState).Inv ∧ (withMax 17#32 huntState).phase = .hunt ∧
    11 + (sampleHeader 6#16).size.toNat ≤ (withMax 17#32 huntState).params.chunkMax.toNat ∧
    [0xAA#8, 0xBB#8].length + ([[0xCC#8], []] ++ [[0xDD#8, 0xEE#8, 0xFF#8]] : List (List Byte)).flatten.length =
      (sampleHeader 6#16).size.toNat ∧
    ([0xDD#8, 0xEE#8, 0xFF#8] : List Byte) ≠ [] ∧
    ∀ p ∈ ([[0xCC#8], []] ++ [[0xDD#8, 0xEE#8, 0xFF#8]] : List (List Byte)), findMarker p = none :=
  ⟨⟨by decide, by decide, by decide, trivial⟩, rfl, by decide, by decide, by decide, by decide⟩

/-- Four owed bytes, then one more. -/
theorem witness_ExcessBytesDependOnChunking :
    collectState.Inv ∧ collectState.phase = .collect ∧ [1#8, 2#8, 3#8, 4#8].length = collectState.remaining.toNat ∧
    ([0#8] : List Byte) ≠ [] ∧ findMarker ([1#8, 2#8, 3#8, 4#8] ++ [0#8]) = none ∧ findMarker [1#8, 2#8, 3#8, 4#8] = none ∧
    ([1#8, 2#8, 3#8, 4#8] ++ [0#8]).length ≤ collectState.params.chunkMax.toNat :=
  ⟨inv_collect, rfl, by decide, by decide, by decide, by decide, by decide⟩

theorem witness_AccumulatorIsMonotonic :
    collectState.Inv ∧ (∃ t, exec (.chunkCont [0xCC#8]) collectState = .next t) ∧ Instr.chunkCont [0xCC#8] ≠ .start ∧
    (∀ k, findMarker [0xCC#8] = some k → [0xCC#8].length < k + 11) ∧
    ∀ h slice, Instr.chunkCont [0xCC#8] ≠ .frameHdr h slice :=
  ⟨inv_collect, ⟨_, rfl⟩, by decide, by intro k h; simp, by intro h slice e; cases e⟩

/-- P7: a header of size 65535 just loaded; 65535 bytes, and 65536. -/
theorem witness_LargestFrameFillsTheBuffer :
    (loadHeader (sampleHeader 0xFFFF#16) huntState).hdr.size = 0xFFFF#16 ∧
    (loadHeader (sampleHeader 0xFFFF#16) huntState).remaining = 0xFFFF#16 ∧
    (loadHeader (sampleHeader 0xFFFF#16) huntState).bufLen = 0#16 ∧
    (List.replicate 65535 (0x5A#8 : Byte)).length = 65535 ∧ 65536 ≤ (List.replicate 65536 (0x5A#8 : Byte)).length :=
  ⟨rfl, rfl, rfl, List.length_replicate, by rw [List.length_replicate]⟩

/-- The last address inside the window, the first outside it, a closed phase. -/
theorem witness_RdpayReadsOnlyItsWindow :
    (doneState.phase = .done ∧ (5#16 : Half).toNat < doneState.bufLen.toNat) ∧
    ¬(doneState.phase = .done ∧ (6#16 : Half).toNat < doneState.bufLen.toNat) ∧
    ¬(collectState.phase = .done ∧ (0#16 : Half).toNat < collectState.bufLen.toNat) := by decide

theorem witness_ReadsAreRepeatable :
    (∃ t, exec .rdstat failedState = .next t) ∧ (∃ t, exec .rdhdr collectState = .next t) ∧
    ∃ t, exec (.rdpay 5#16) doneState = .next t := ⟨⟨_, rfl⟩, ⟨_, rfl⟩, _, rfl⟩

/-- The two events, and operations after each that are all of the kinds but START. -/
theorem witness_EventEqualsReadout :
    ({ doneState with out := { event := doneEvent doneState, result := none } } : State).Inv ∧
    ({ failedState with out := { event := .evErr .overDelivery 6#32, result := none } } : State).Inv ∧
    (∀ i ∈ [Instr.rdstat, .cancel, .chunkIgnored [0#8]], i ≠ .start) ∧
    (∃ t, runAll [.rdstat, .cancel, .chunkIgnored [0#8]] doneState = .next t) :=
  ⟨⟨by decide, by decide, by decide, rfl, rfl, rfl⟩, ⟨by decide, by decide, by decide, rfl, rfl, rfl⟩, by decide, _, rfl⟩

theorem witness_StatusTakesNineValues :
    State.reset.Inv ∧ huntState.Inv ∧ collectState.Inv ∧ doneState.Inv ∧ failedState.Inv :=
  ⟨inv_idle, inv_hunt, inv_collect, inv_done, inv_failed⟩

/-- Each error, with the phase it is raised in. -/
theorem witness_ErrorEntryIsPrecise :
    (∃ t, exec .cancel huntState = .next t ∧ t.out.event = .evErr .timeout 0#32) ∧
    (∃ t, exec (.chunkMalformed mark) collectState = .next t ∧ t.out.event = .evErr .malformedHeader 0#32) ∧
    ∃ t, exec (.chunkCont [1#8, 2#8, 3#8, 4#8, 5#8]) collectState = .next t ∧ t.out.event = .evErr .overDelivery 6#32 :=
  ⟨⟨_, rfl, by decide⟩, ⟨_, rfl, by decide⟩, _, rfl, by decide⟩

theorem witness_FailedIsLeftOnlyByStart :
    failedState.phase = .failed ∧ Instr.cancel ≠ .start ∧ ∃ t, exec .cancel failedState = .next t := ⟨rfl, by decide, _, rfl⟩

/-- Also the witness of CompletionMeansWholePayload: the state before it meets the invariant. -/
theorem witness_EventsCarryTheFinalState :
    collectState.Inv ∧
    (∃ t, exec (.chunkCont [0xCC#8, 0xDD#8, 0xEE#8, 0xFF#8]) collectState = .next t ∧
      t.out.event = .evDone (sampleHeader 6#16) [0xAA#8, 0xBB#8, 0xCC#8, 0xDD#8, 0xEE#8, 0xFF#8]) ∧
    ∃ t, exec .cancel collectState = .next t ∧ t.out.event = .evErr .timeout 2#32 :=
  ⟨inv_collect, ⟨_, rfl, by decide⟩, _, rfl, by decide⟩

theorem witness_OneEventPerSession :
    (∀ i ∈ [Instr.chunkCont [1#8, 2#8, 3#8, 4#8], .cancel], i ≠ .start) ∧
    (eventsOf [.chunkCont [1#8, 2#8, 3#8, 4#8], .cancel] collectState).length = 1 := by decide

/-- The cells of the table at their boundaries: the slice and the chunk one byte short, exact, one byte over. -/
theorem witness_PhaseTransitionTable :
    huntState.Inv ∧ collectState.Inv ∧
    (∃ t, exec (chunkInstr huntState (mark ++ [0#8, 0#8, 0#8, 0#8, 0#8, 1#8, 0#8])) huntState = .next t ∧ t.phase = .collect) ∧
    (∃ t, exec (chunkInstr huntState (mark ++ [0#8, 0#8, 0#8, 0#8, 0#8, 1#8, 0#8, 9#8])) huntState = .next t ∧ t.phase = .done) ∧
    (∃ t, exec (chunkInstr huntState (mark ++ [0#8, 0#8, 0#8, 0#8, 0#8, 1#8, 0#8, 9#8, 9#8])) huntState = .next t ∧
      t.phase = .failed) ∧
    (∃ t, exec (chunkInstr collectState [1#8, 2#8, 3#8]) collectState = .next t ∧ t.phase = .collect) ∧
    (∃ t, exec (chunkInstr collectState [1#8, 2#8, 3#8, 4#8]) collectState = .next t ∧ t.phase = .done) ∧
    ∃ t, exec (chunkInstr collectState [1#8, 2#8, 3#8, 4#8, 5#8]) collectState = .next t ∧ t.phase = .failed :=
  ⟨inv_hunt, inv_collect, ⟨_, rfl, by decide⟩, ⟨_, rfl, by decide⟩, ⟨_, rfl, by decide⟩, ⟨_, rfl, by decide⟩,
    ⟨_, rfl, by decide⟩, _, rfl, by decide⟩

theorem witness_StartHidesEarlierSession :
    doneState.params = failedState.params ∧ (∃ u, exec .start doneState = .next u) ∧
    ∃ u, exec .start failedState = .next u := ⟨rfl, ⟨_, rfl⟩, _, rfl⟩

/-- Both ways of resetting; with `rst` high, `start` and a chunk's last byte in the same cycle. -/
theorem witness_ResetTakesTheResetState :
    ({ doneState with inputs := [.reset] } : State).inputs = .reset :: [] ∧
    ({ doneState with inputs := [.cycle { (byteCycle 0#8 true) with rst := true, start := true }] } : State).inputs =
      .cycle { (byteCycle 0#8 true) with rst := true, start := true } :: [] ∧
    ({ (byteCycle 0#8 true) with rst := true, start := true } : PinIn).rst = true := by decide

theorem witness_StepKeepsInvariant :
    ({ collectState with inputs := [.port (.request 0b001#3 [0xCC#8])] } : State).Inv ∧
    ∃ t, step { collectState with inputs := [.port (.request 0b001#3 [0xCC#8])] } = .next t :=
  ⟨⟨by decide, by decide, by decide, trivial⟩, _, rfl⟩

theorem witness_OperationsKeepBufferCanonical :
    Memory.wf collectState.buf = true ∧ ∃ t, exec (.chunkCont [0xCC#8]) collectState = .next t := ⟨by decide, _, rfl⟩

theorem witness_BufferNeverOverflows : collectState.Inv := inv_collect

/-- Each of the three ways a step can end. -/
theorem witness_StepStopsOnlyWhereRefused :
    ({ doneState with inputs := [.port (.readAddress 6#16)] } : State).Inv ∧
    refusedBy .outsideReadWindow (step { doneState with inputs := [.port (.readAddress 6#16)] }) = true ∧
    (withMax 1#32 { huntState with inputs := [.port (.request 0b001#3 [0#8, 0#8])] }).Inv ∧
    refusedBy .chunkTooLong (step (withMax 1#32 { huntState with inputs := [.port (.request 0b001#3 [0#8, 0#8])] })) = true ∧
    (∃ t, step huntState = .next t) :=
  ⟨⟨by decide, by decide, by decide, trivial⟩, by decide, ⟨by decide, by decide, by decide, trivial⟩, by decide, _, rfl⟩

theorem witness_ParametersNeverChange :
    ∃ t, step { huntState with inputs := [.cycle (byteCycle 0#8 true)] } = .next t := ⟨_, rfl⟩

/-- Every row, in a context that selects it. -/
theorem witness_DecodeOfEncodeIsTheInstruction :
    (∀ i ∈ [Instr.start, .cancel, .rdstat, .rdhdr, .rdpay 0xFFFF#16, .chunkIgnored [0#8], .frameHdr (sampleHeader 6#16) [1#8]],
      i.wellFormed resetContext.params = true ∧ i.selectedIn resetContext = true) ∧
    (∀ i ∈ [Instr.chunkSync (mark ++ List.replicate 7 0#8), .chunkMalformed mark, .chunkNoise []],
      i.wellFormed (decodeContext huntState).params = true ∧ i.selectedIn (decodeContext huntState) = true) ∧
    (Instr.chunkCont []).wellFormed (decodeContext collectState).params = true ∧
    (Instr.chunkCont []).selectedIn (decodeContext collectState) = true := by decide

theorem witness_DecodedInstructionIsWellFormed :
    decode (decodeContext collectState) (.request 0b101#3 [0xEE#8]) = .ok (.cancel, some (.request 0b001#3 [0xEE#8])) ∧
    decode (decodeContext collectState) (.request 0b001#3 [0xEE#8]) = .ok (.chunkCont [0xEE#8], none) := by decide

theorem witness_StepRunsDecodedInstruction :
    ({ collectState with inputs := [.port (.request 0b101#3 [0xEE#8])] } : State).inputs =
      .port (.request 0b101#3 [0xEE#8]) :: [] ∧
    decode (decodeContext { collectState with inputs := [.port (.request 0b101#3 [0xEE#8])] }) (.request 0b101#3 [0xEE#8]) =
      .ok (.cancel, some (.request 0b001#3 [0xEE#8])) := by decide

theorem witness_NothingHappensUnrequested :
    huntState.inputs = [] ∧
    ({ huntState with inputs := [.port (.request 0b000#3 [])] } : State).inputs = .port (.request 0b000#3 []) :: [] := by decide

/-- A cycle in which every clause has its premise met by one of four pins settings. -/
theorem witness_ClockCycleFollowsPinRules :
    ({ doneState with inputs := [.cycle { (byteCycle 0#8 true) with rdAddr := 5#16 }] } : State).inputs =
      .cycle { (byteCycle 0#8 true) with rdAddr := 5#16 } :: [] ∧
    ({ (byteCycle 0#8 true) with rdAddr := 5#16 } : PinIn).rst = false ∧
    (({ (byteCycle 0#8 true) with rdAddr := 5#16 } : PinIn).inValid = true ∧
      ({ (byteCycle 0#8 true) with rdAddr := 5#16 } : PinIn).inLast = true ∧ doneState.drop = false) ∧
    ((byteCycle 0#8 false).inValid = true ∧ (byteCycle 0#8 false).inLast = false) ∧
    ({ (byteCycle 0#8 false) with inValid := false } : PinIn).inValid = false ∧
    (doneState.phase = .done ∧ ({ (byteCycle 0#8 true) with rdAddr := 5#16 } : PinIn).rdAddr.toNat < doneState.bufLen.toNat) := by
  decide

/-- A chunk of one byte and a chunk that completes the payload. -/
theorem witness_PinChunkIsChunkOperation :
    ([0xCC#8] : List Byte) ≠ [] ∧ collectState.staged = [] ∧ collectState.drop = false ∧
    (∃ u, exec (chunkInstr collectState [0xCC#8]) collectState = .next u) ∧
    ∃ u, exec (chunkInstr collectState [1#8, 2#8, 3#8, 4#8]) collectState = .next u :=
  ⟨by decide, rfl, rfl, ⟨_, rfl⟩, _, rfl⟩

end Sys2Proof.Machine
end

section
/-! The fields of `extract` as numbers (30_encoding.md R75 to R80): a field composed by shift and or is a sum, because
its two parts share no bit. -/

namespace Sys2Proof.Machine

/-- Composition by shift and or is a sum when no high bit is shifted out and the low part fits below the shift. -/
theorem toNat_shiftLeft_or {w : Nat} (hi lo : BitVec w) (k : Nat) (hhi : hi.toNat * 2 ^ k < 2 ^ w)
    (hlo : lo.toNat < 2 ^ k) : (hi <<< k ||| lo).toNat = hi.toNat * 2 ^ k + lo.toNat := by
  have hshift : (hi <<< k).toNat = hi.toNat <<< k := by
    rw [BitVec.toNat_shiftLeft, Nat.shiftLeft_eq, Nat.mod_eq_of_lt hhi]
  rw [BitVec.toNat_or, hshift, ← Nat.shiftLeft_add_eq_or_of_lt hlo, Nat.shiftLeft_eq]

theorem sharedField_true_toNat (shared : Byte) : (sharedField true shared).toNat = shared.toNat % 16 := by
  simp [sharedField]

theorem sharedField_false_toNat (shared : Byte) : (sharedField false shared).toNat = shared.toNat / 16 := by
  have hhigh : shared.toNat / 16 < 16 := by omega
  simp [sharedField, Nat.shiftRight_eq_div_pow, Nat.mod_eq_of_lt hhigh]

/-- The low 4 bits of an identifier are the nibble of the shared byte that the other layout gives to the 4-bit field
(R74, R76, R78). -/
theorem sharedIdent_eq (low : Bool) (shared next : Byte) :
    sharedIdent low shared next = next.setWidth 12 <<< 4 ||| (sharedField (!low) shared).setWidth 12 := by
  have hhigh : (shared >>> 4).setWidth 12 = ((shared >>> 4).setWidth 4).setWidth 12 := by bv_omega
  cases low
  · rfl
  · exact congrArg (next.setWidth 12 <<< 4 ||| ·) hhigh

theorem sharedIdent_toNat (low : Bool) (shared next : Byte) :
    (sharedIdent low shared next).toNat = next.toNat * 16 + (sharedField (!low) shared).toNat := by
  have hnext : (next.setWidth 12).toNat = next.toNat := BitVec.toNat_setWidth_of_le (by decide)
  have hlow : ((sharedField (!low) shared).setWidth 12).toNat = (sharedField (!low) shared).toNat :=
    BitVec.toNat_setWidth_of_le (by decide)
  rw [sharedIdent_eq, toNat_shiftLeft_or _ _ 4 (by rw [hnext]; omega) (by rw [hlow]; omega), hnext, hlow]
  rfl

theorem sharedIdent_true_toNat (shared next : Byte) :
    (sharedIdent true shared next).toNat = next.toNat * 16 + shared.toNat / 16 := by
  rw [sharedIdent_toNat, Bool.not_true, sharedField_false_toNat]

theorem sharedIdent_false_toNat (shared next : Byte) :
    (sharedIdent false shared next).toNat = next.toNat * 16 + shared.toNat % 16 := by
  rw [sharedIdent_toNat, Bool.not_false, sharedField_true_toNat]

theorem extract_size_toNat (low : Bool) (h : HdrBytes) :
    (extract low h).size.toNat = h.h5.toNat + 256 * h.h6.toNat := by
  have h5 : (h.h5.setWidth 16).toNat = h.h5.toNat := BitVec.toNat_setWidth_of_le (by decide)
  have h6 : (h.h6.setWidth 16).toNat = h.h6.toNat := BitVec.toNat_setWidth_of_le (by decide)
  calc (h.h6.setWidth 16 <<< 8 ||| h.h5.setWidth 16).toNat
      = h.h6.toNat * 2 ^ 8 + h.h5.toNat := by
        rw [toNat_shiftLeft_or _ _ 8 (by rw [h6]; omega) (by rw [h5]; omega), h6, h5]
    _ = h.h5.toNat + 256 * h.h6.toNat := by omega

/-- Settles O44: the two shared bytes by their nibbles, the identifiers and the size as sums of disjoint parts. -/
theorem headerFieldsByArithmetic : Obligations.HeaderFieldsByArithmetic :=
  fun h => ⟨⟨sharedField_true_toNat h.h0, sharedField_false_toNat h.h0⟩,
    ⟨sharedIdent_true_toNat h.h0 h.h1, sharedIdent_false_toNat h.h0 h.h1⟩,
    ⟨sharedField_true_toNat h.h2, sharedField_false_toNat h.h2⟩,
    ⟨sharedIdent_true_toNat h.h2 h.h3, sharedIdent_false_toNat h.h2 h.h3⟩,
    fun low => ⟨rfl, extract_size_toNat low h⟩⟩

end Sys2Proof.Machine
end

section
/-! The frame synchronizer (40_frame_synchronizer.md): the marker search by positions, CHUNK(`c`) by case as equations,
what a contribution leaves; then its obligations. -/

namespace Sys2Proof.Machine

/-! ## The marker search -/

/-- The marker stands at index `i` of the chunk (R102). -/
def MarkAt (bytes : List Byte) (i : Nat) : Prop := ∀ k < 4, bytes[i + k]? = some 0x7E#8

theorem not_markAt_nil (i : Nat) : ¬ MarkAt [] i := fun h => by simpa using h 0 (by omega)

theorem markAt_cons_succ (b : Byte) (c : List Byte) (i : Nat) : MarkAt (b :: c) (i + 1) ↔ MarkAt c i := by
  simp only [MarkAt, Nat.add_right_comm i 1, List.getElem?_cons_succ]

theorem startsWithMark_iff_markAt_zero (bytes : List Byte) : startsWithMark bytes = true ↔ MarkAt bytes 0 := by
  have hmark (k : Nat) : mark[k]? = if k < 4 then some 0x7E#8 else none := List.getElem?_replicate
  have htake (k : Nat) : (bytes.take markerLen)[k]? = if k < 4 then bytes[k]? else none := List.getElem?_take
  rw [startsWithMark, decide_eq_true_iff, List.ext_getElem?_iff, MarkAt]
  refine forall_congr' fun k => ?_
  by_cases hk : k < 4 <;> simp [hmark, htake, hk]

theorem findMarker_cons_of_markAt {b : Byte} {c : List Byte} (h : MarkAt (b :: c) 0) : findMarker (b :: c) = some 0 :=
  if_pos ((startsWithMark_iff_markAt_zero _).2 h)

theorem findMarker_cons_of_not_markAt {b : Byte} {c : List Byte} (h : ¬ MarkAt (b :: c) 0) :
    findMarker (b :: c) = (findMarker c).map (· + 1) :=
  if_neg (mt (startsWithMark_iff_markAt_zero _).1 h)

/-- The search finds the least index of a marker (R102). -/
theorem findMarker_eq_some_iff (c : List Byte) (i : Nat) :
    findMarker c = some i ↔ MarkAt c i ∧ ∀ j < i, ¬ MarkAt c j := by
  induction c generalizing i with
  | nil => simp [findMarker, not_markAt_nil]
  | cons b c ih =>
    by_cases h0 : MarkAt (b :: c) 0
    · rw [findMarker_cons_of_markAt h0]
      cases i with
      | zero => simp [h0]
      | succ i => exact iff_of_false (by simp) fun h => h.2 0 (by omega) h0
    · rw [findMarker_cons_of_not_markAt h0]
      cases i with
      | zero => exact iff_of_false (by simp) fun h => h0 h.1
      | succ i =>
        rw [Nat.forall_lt_succ_left]
        simp [markAt_cons_succ, h0, ih]

/-- The search fails exactly where no index has a marker (R102): were there one, the least one would be found. -/
theorem findMarker_eq_none_iff (c : List Byte) : findMarker c = none ↔ ∀ i, ¬ MarkAt c i := by
  classical
  constructor
  · intro hnone i hi
    have hex : ∃ i, MarkAt c i := ⟨i, hi⟩
    have hsome := (findMarker_eq_some_iff c (Nat.find hex)).2 ⟨Nat.find_spec hex, fun j hj => Nat.find_min hex hj⟩
    simp [hnone] at hsome
  · intro hnot
    exact Option.eq_none_iff_forall_ne_some.2 fun i hi => hnot i ((findMarker_eq_some_iff c i).1 hi).1

/-- A marker that is found lies inside the chunk (R102). -/
theorem findMarker_add_four_le {c : List Byte} {i : Nat} (h : findMarker c = some i) : i + 4 ≤ c.length := by
  have hlast := ((findMarker_eq_some_iff c i).1 h).1 3 (by omega)
  have := (List.getElem?_eq_some_iff.1 hlast).1
  omega

/-- A marker with seven bytes after it makes a frame of the chunk (R105). -/
theorem exists_contents_frame {c : List Byte} {i : Nat} (hi : findMarker c = some i) (hlen : i + 11 ≤ c.length) :
    ∃ h slice, contents c = .frame i h slice := by
  cases hc : contents c with
  | noMarker => simp [(contents_noMarker_iff c).1 hc] at hi
  | shortHeader j =>
    obtain ⟨hj, hshort⟩ := (contents_shortHeader_iff c j).1 hc
    obtain rfl : i = j := Option.some.inj (hi.symm.trans hj)
    rw [List.length_drop] at hshort
    omega
  | frame j h slice =>
    obtain rfl : i = j := Option.some.inj (hi.symm.trans ((contents_frame_iff c j h slice).1 hc).1)
    exact ⟨h, slice, rfl⟩

/-! ## CHUNK by case (R100) -/

theorem chunkFits_iff (p : Params) (c : List Byte) : chunkFits p c = true ↔ c.length ≤ p.chunkMax.toNat :=
  decide_eq_true_iff

theorem isActive_of_active {ph : Phase} (h : ph = .hunt ∨ ph = .collect) : isActive ph = true := by
  rcases h with rfl | rfl <;> rfl

theorem isActive_of_inactive {ph : Phase} (h : ph = .idle ∨ ph = .done ∨ ph = .failed) : isActive ph = false := by
  rcases h with rfl | rfl | rfl <;> rfl

section

variable {s : State} {c : List Byte}

theorem performChunk_inactive (ha : isActive s.phase = false) (hc : c.length ≤ s.params.chunkMax.toNat) :
    performChunk c s = .next (emit .evNone none s) := by
  rw [performChunk, onChunk_fits _ ((chunkFits_iff _ _).2 hc), chunkCase, ha]
  rfl

theorem performChunk_frame (ha : isActive s.phase = true) (hc : c.length ≤ s.params.chunkMax.toNat)
    {i : Nat} {h : HdrBytes} {slice : List Byte} (hf : contents c = .frame i h slice) :
    performChunk c s = contribute slice (loadHeader (extract s.params.protocolLowNibble h) s) := by
  rw [performChunk, onChunk_fits _ ((chunkFits_iff _ _).2 hc), chunkCase, ha, hf]
  rfl

theorem performChunk_shortHeader (ha : isActive s.phase = true) (hc : c.length ≤ s.params.chunkMax.toNat)
    {i : Nat} (hf : contents c = .shortHeader i) :
    performChunk c s = .next (enterFailed .malformedHeader (BitVec.ofNat 32 i) s) := by
  rw [performChunk, onChunk_fits _ ((chunkFits_iff _ _).2 hc), chunkCase, ha, hf]
  rfl

theorem performChunk_cont (ha : isActive s.phase = true) (hm : s.hdrMatched = true)
    (hc : c.length ≤ s.params.chunkMax.toNat) (hf : findMarker c = none) : performChunk c s = contribute c s := by
  rw [performChunk, onChunk_fits _ ((chunkFits_iff _ _).2 hc), chunkCase, ha, (contents_noMarker_iff c).2 hf, hm]
  rfl

theorem performChunk_noise (ha : isActive s.phase = true) (hm : s.hdrMatched = false)
    (hc : c.length ≤ s.params.chunkMax.toNat) (hf : findMarker c = none) :
    performChunk c s = .next (emit .evNone none s) := by
  rw [performChunk, onChunk_fits _ ((chunkFits_iff _ _).2 hc), chunkCase, ha, (contents_noMarker_iff c).2 hf, hm]
  rfl

end

/-- The row the decoder reads in `s` performs CHUNK(`c`). -/
@[simp] theorem exec_chunkInstr (s : State) (c : List Byte) : exec (chunkInstr s c) s = performChunk c s :=
  exec_selectRow _ c s

/-- An operation without effect changes its outputs only. -/
theorem emit_evNone_effect (s : State) :
    SameRegisters s (emit .evNone none s) ∧ Emitted .evNone none s (emit .evNone none s) ∧
      SameBytes s (emit .evNone none s) ∧ SamePorts s (emit .evNone none s) := by
  simp [SameRegisters, Emitted, SameBytes, SamePorts]

/-- Error entry emits its event and leaves the buffer and the ports alone (R193). -/
theorem enterFailed_frame (e : ErrCode) (info : Offset) (s : State) :
    Emitted (.evErr e info) none s (enterFailed e info s) ∧ SameBytes s (enterFailed e info s) ∧
      SamePorts s (enterFailed e info s) :=
  ⟨⟨rfl, rfl, rfl⟩, fun _ => rfl, rfl, rfl, rfl, rfl, rfl, rfl⟩

/-! ## What a contribution leaves (R130 to R133) -/

theorem contribute_of_overDelivery {bs : List Byte} {s : State} (h : s.remaining.toNat < bs.length) :
    contribute bs s = .next (enterFailed .overDelivery (s.hdr.size.setWidth 32) s) := if_pos h

theorem contribute_of_complete {bs : List Byte} {s : State} (h : bs.length = s.remaining.toNat)
    (hroom : s.bufLen.toNat + bs.length ≤ bufBytes) :
    contribute bs s = .next (completePayload (appendBytes bs s)) := by
  rw [contribute, if_neg (by omega), if_neg (by omega), if_pos h.symm]

theorem contribute_of_incomplete {bs : List Byte} {s : State} (h : bs.length < s.remaining.toNat)
    (hroom : s.bufLen.toNat + bs.length ≤ bufBytes) :
    contribute bs s = .next (keepCollecting (appendBytes bs s)) := by
  rw [contribute, if_neg (by omega), if_neg (by omega), if_neg (by omega)]

/-- The bytes appended stand at `buf_len` on, and no other byte changes (R52, R55). -/
theorem appended_writeBytes (bs : List Byte) (s t : State)
    (h : t.buf = Memory.writeBytes s.buf s.bufLen.toNat bs) : Appended bs s t := by
  constructor
  · intro k b hk
    have hlt : k < bs.length := (List.getElem?_eq_some_iff.1 hk).1
    rw [h, Memory.read, Memory.lookup_writeBytes, if_pos (by omega), Nat.add_sub_cancel_left, hk, Option.getD_some]
  · intro a ha
    rw [h, Memory.read, Memory.lookup_writeBytes, if_neg (by omega), Memory.read]

/-- A contribution has a next state wherever the counters add up to the header's size (R130, R133). -/
theorem contribute_effect (bs : List Byte) (s : State) (hsum : s.bufLen.toNat + s.remaining.toNat = s.hdr.size.toNat) :
    ∃ t, contribute bs s = .next t ∧ ContributionEffect bs s t := by
  have hsize := s.hdr.size.isLt
  rcases Nat.lt_trichotomy bs.length s.remaining.toNat with hlt | heq | hgt
  · refine ⟨_, contribute_of_incomplete hlt (by rw [bufBytes]; omega), rfl, rfl, ⟨rfl, rfl, rfl, rfl, rfl, rfl⟩,
      by omega, fun _ => ?_, by omega⟩
    have hrem : (s.remaining - BitVec.ofNat 16 bs.length).toNat = s.remaining.toNat - bs.length := by bv_omega
    have hlen : (s.bufLen + BitVec.ofNat 16 bs.length).toNat = s.bufLen.toNat + bs.length := by bv_omega
    exact ⟨rfl, rfl, rfl, hrem, hlen, appended_writeBytes bs s _ rfl, rfl, rfl, rfl⟩
  · refine ⟨_, contribute_of_complete heq (by rw [bufBytes]; omega), rfl, rfl, ⟨rfl, rfl, rfl, rfl, rfl, rfl⟩,
      by omega, by omega, fun _ => ?_⟩
    have hrem : s.remaining - BitVec.ofNat 16 bs.length = 0#16 := by bv_omega
    have hlen : s.bufLen + BitVec.ofNat 16 bs.length = s.hdr.size := by bv_omega
    exact ⟨rfl, rfl, rfl, hrem, hlen, appended_writeBytes bs s _ rfl, rfl, rfl, rfl⟩
  · obtain ⟨hemit, hbytes, hports⟩ := enterFailed_frame .overDelivery (s.hdr.size.setWidth 32) s
    exact ⟨_, contribute_of_overDelivery hgt, rfl, rfl, hports,
      fun _ => ⟨rfl, rfl, rfl, rfl, rfl, hbytes, hemit⟩, by omega, by omega⟩

/-- A contribution changes neither `hdr_matched` nor the parameters. -/
theorem contribute_frame {bs : List Byte} {s t : State} (h : contribute bs s = .next t) :
    t.hdrMatched = s.hdrMatched ∧ t.params = s.params := by
  rcases contribute_cases bs s with ⟨-, he⟩ | ⟨-, -, he⟩ | ⟨-, -, he⟩ | ⟨-, -, he⟩ <;>
    rw [he] at h <;> cases h <;> exact ⟨rfl, rfl⟩

/-- A contribution reads neither the phase nor the output and the event pins: states that differ in these alone are
left with the same registers, bytes and output. -/
theorem contribute_of_other_phase {bs : List Byte} {u t : State} (h : contribute bs u = .next t)
    (ph : Phase) (o : Output) (d e : Bool) :
    ∃ t', contribute bs { u with phase := ph, out := o, evDone := d, evErr := e } = .next t' ∧
      t'.toBlock = t.toBlock ∧ t'.out = t.out := by
  rcases contribute_cases bs u with ⟨hlt, he⟩ | ⟨-, -, he⟩ | ⟨heq, hroom, he⟩ | ⟨hlt, hroom, he⟩ <;>
    rw [he] at h <;> cases h
  · exact ⟨_, contribute_of_overDelivery hlt, rfl, rfl⟩
  · exact ⟨_, contribute_of_complete heq hroom, rfl, rfl⟩
  · exact ⟨_, contribute_of_incomplete hlt hroom, rfl, rfl⟩

/-- Where no error stands, a header load right after START differs from one without it in the phase, the output and
the event pins alone (R105, R150). -/
theorem loadHeader_openSession (h : Header) {s : State} (hcode : s.errCode = .none) (hoff : s.errOffset = 0#32) :
    loadHeader h (openSession s) =
      { loadHeader h s with
        phase := .hunt, out := (openSession s).out,
        evDone := (openSession s).evDone, evErr := (openSession s).evErr } := by
  simp [loadHeader, openSession, freshRegisters, emit, hcode, hoff]

/-! ## The obligations -/

/-- Settles O5: by the characterisation of the search. -/
theorem findMarkerIsLeastOccurrence : Obligations.FindMarkerIsLeastOccurrence :=
  fun bytes => ⟨findMarker_eq_some_iff bytes, findMarker_eq_none_iff bytes⟩

/-- Settles O6: in an inactive phase the chunk is not searched and only the output is written. -/
theorem chunkIgnoredChangesNothing : Obligations.ChunkIgnoredChangesNothing := by
  intro s c hph hc
  refine ⟨_, ?_, emit_evNone_effect s⟩
  rw [exec_chunkIgnored, performChunk_inactive (isActive_of_inactive hph) hc]

/-- Settles O7: the header load leaves `buf_len` 0 and `remaining` = `size`, so the contribution has a next state. -/
theorem chunkSyncLoadsHeaderAndContributes : Obligations.ChunkSyncLoadsHeaderAndContributes := by
  intro s c i h slice hph hc hi hd
  rw [exec_chunkSync, performChunk_frame (isActive_of_active hph) hc ((contents_frame_iff c i h slice).2 ⟨hi, hd⟩)]
  exact contribute_effect slice (loadHeader (extract s.params.protocolLowNibble h) s) (by simp)

/-- Settles O8: the marker lies inside a chunk of at most CHUNK_MAX bytes, so its index fits `err_offset`. -/
theorem chunkMalformedFails : Obligations.ChunkMalformedFails := by
  intro s c i hph hc hi hshort
  have hcontents : contents c = .shortHeader i :=
    (contents_shortHeader_iff c i).2 ⟨hi, by rw [List.length_drop]; omega⟩
  have hfits : i < 2 ^ 32 := by
    have := findMarker_add_four_le hi
    have := s.params.chunkMax.isLt
    omega
  rw [exec_chunkMalformed, performChunk_shortHeader (isActive_of_active hph) hc hcontents]
  exact ⟨_, rfl, rfl, rfl, Nat.mod_eq_of_lt hfits, rfl, rfl, rfl, rfl, enterFailed_frame _ _ s⟩

/-- Settles O9: without a marker the chunk itself is contributed, to counters that add up to the size. -/
theorem chunkContContributesWholeChunk : Obligations.ChunkContContributesWholeChunk := by
  intro s c hph hm hsum hc hf
  rw [exec_chunkCont, performChunk_cont (isActive_of_active (.inr hph)) hm hc hf]
  exact contribute_effect c s hsum

/-- Settles O10: without a marker and before a header only the output is written. -/
theorem chunkNoiseChangesNothing : Obligations.ChunkNoiseChangesNothing := by
  intro s c hph hm hc hf
  refine ⟨_, ?_, emit_evNone_effect s⟩
  rw [exec_chunkNoise, performChunk_noise (isActive_of_active (.inl hph)) hm hc hf]

/-- Settles O14: neither chunk holds a marker, so in HUNT both are noise; in COLLECT the first is a contribution, which
keeps `hdr_matched`, so the second is one again. -/
theorem markerCutByChunkBoundaryIsUnseen : Obligations.MarkerCutByChunkBoundaryIsUnseen := by
  intro s c d hc hd _ hclen hdlen hinv
  obtain ⟨⟨-, hhunt, hcollect, -, -⟩, -, -, -⟩ := hinv
  constructor
  · intro hph
    have hm : s.hdrMatched = false := (hhunt hph).1
    have hactive : isActive s.phase = true := isActive_of_active (.inl hph)
    have hfirst : performChunk c s = .next (emit .evNone none s) := performChunk_noise hactive hm hclen hc
    have hsecond : performChunk d (emit .evNone none s) = .next (emit .evNone none (emit .evNone none s)) :=
      performChunk_noise (s := emit .evNone none s) hactive hm hdlen hd
    refine ⟨emit .evNone none (emit .evNone none s), by simp [chunkAll, hfirst, hsecond], ?_, fun _ => rfl, rfl⟩
    exact ⟨rfl, rfl, rfl, rfl, rfl, rfl, rfl⟩
  · intro hph
    have hm : s.hdrMatched = true := (hcollect hph).1
    constructor
    · rw [exec_chunkInstr, performChunk_cont (isActive_of_active (.inr hph)) hm hclen hc]
    · intro t ht htph
      obtain ⟨hmt, hpt⟩ := contribute_frame ht
      rw [exec_chunkInstr, performChunk_cont (isActive_of_active (.inr htph)) (hmt.trans hm) (hpt ▸ hdlen) hd]

/-- Settles O17: in COLLECT no error stands, so the header load ends in the state it reaches right after START, but for
the phase and the outputs, and these a contribution does not read. -/
theorem resynchronisationStartsAfresh : Obligations.ResynchronisationStartsAfresh := by
  intro s u t c i hinv hph hi hlen hu ht
  obtain ⟨⟨-, -, hcollect, -, -⟩, -, -, -⟩ := hinv
  obtain ⟨-, hcode, hoff, -⟩ := hcollect hph
  obtain rfl : openSession s = u := by simpa [exec, execStart] using hu
  obtain ⟨h, slice, hframe⟩ := exists_contents_frame hi hlen
  rw [exec_chunkSync] at ht
  have hfit := (chunkFits_iff _ _).1 (performChunk_next ht).1
  rw [performChunk_frame (isActive_of_active (.inr hph)) hfit hframe] at ht
  obtain ⟨t', ht', hblock, hout⟩ := contribute_of_other_phase ht .hunt (openSession s).out (openSession s).evDone
    (openSession s).evErr
  rw [← loadHeader_openSession _ hcode hoff] at ht'
  refine ⟨t', ?_, ?_, hout, fun a _ => by rw [hblock]⟩
  · rw [exec_chunkSync, performChunk_frame (s := openSession s) rfl hfit hframe]
    exact ht'
  · simp [SameRegisters, hblock]

end Sys2Proof.Machine
end

section
/-! The reassembler (41_payload_reassembler.md): the obligation over `contribute`, from its effect above. -/

namespace Sys2Proof.Machine

/-- Settles O18: the sum of the counters alone keeps every stored byte below address 65535, so the contribution has a
next state; `hdr_matched` is not read. -/
theorem contributeFollowsItsProcedure : Obligations.ContributeFollowsItsProcedure :=
  fun s bs _ hsum => contribute_effect bs s hsum

end Sys2Proof.Machine
end

section
/-! Session control (42_session_control.md): START and CANCEL as equations of `exec`, then their obligations. -/

namespace Sys2Proof.Machine

/-- START in any phase (R150, R151). -/
@[simp] theorem exec_start (s : State) : exec .start s = .next (openSession s) := rfl

/-- CANCEL in an active phase (R152). -/
theorem exec_cancel_active {s : State} (ha : isActive s.phase = true) :
    exec .cancel s = .next (enterFailed .timeout (s.bufLen.setWidth 32) s) := if_pos ha

/-- CANCEL in an inactive phase (R153). -/
theorem exec_cancel_inactive {s : State} (ha : isActive s.phase = false) :
    exec .cancel s = .next (emit .evNone none s) := if_neg (by simp [ha])

/-- A fresh session starts without an event and leaves the ports alone (R150). -/
theorem openSession_frame (s : State) :
    Emitted .evNone none s (openSession s) ∧ SamePorts s (openSession s) :=
  ⟨⟨rfl, rfl, rfl⟩, rfl, rfl, rfl, rfl, rfl, rfl⟩

/-- Settles O1: START is `openSession` in every phase, which sets each register to its initial value. -/
theorem startOpensFreshSession : Obligations.StartOpensFreshSession := fun s =>
  ⟨openSession s, exec_start s, rfl, rfl, rfl, rfl, rfl, rfl, rfl, rfl, rfl, rfl, rfl, rfl, openSession_frame s⟩

/-- Settles O2: in an active phase CANCEL is the error entry with TIMEOUT, which writes the phase, the code and the
offset only. -/
theorem cancelFailsActiveSession : Obligations.CancelFailsActiveSession := fun s hph =>
  ⟨_, exec_cancel_active (isActive_of_active hph), rfl, rfl, rfl, rfl, rfl, rfl, rfl,
    enterFailed_frame .timeout (s.bufLen.setWidth 32) s⟩

/-- Settles O3: in an inactive phase CANCEL writes its output only. -/
theorem cancelKeepsOutcome : Obligations.CancelKeepsOutcome := fun s hph =>
  ⟨_, exec_cancel_inactive (isActive_of_inactive hph), emit_evNone_effect s⟩

end Sys2Proof.Machine
end

section
/-! The read-out (43_readout.md): the bits of STATUS, the read operations as equations of `exec`, what such an operation
leaves behind, then the obligations. -/

namespace Sys2Proof.Machine

/-! ## The bits of STATUS (R34) -/

theorem statusWord_phase (ph : Phase) (hm : Bool) (e : ErrCode) :
    (statusWord ph hm e).extractLsb' 0 3 = phaseCode ph :=
  BitVec.extractLsb'_append_eq_right

theorem statusWord_hdrMatched (ph : Phase) (hm : Bool) (e : ErrCode) :
    (statusWord ph hm e).getLsbD 3 = hm := by
  rw [statusWord, BitVec.getLsbD_append, if_neg (by decide), BitVec.getLsbD_append, if_pos (by decide)]
  exact BitVec.getLsbD_ofBool hm 0

theorem statusWord_errCode (ph : Phase) (hm : Bool) (e : ErrCode) :
    (statusWord ph hm e).extractLsb' 4 3 = errCodeBits e := by
  rw [statusWord, BitVec.extractLsb'_append_eq_of_le (by decide), BitVec.extractLsb'_append_eq_of_le (by decide)]
  exact BitVec.extractLsb'_append_eq_right

theorem statusWord_top (ph : Phase) (hm : Bool) (e : ErrCode) : (statusWord ph hm e).getLsbD 7 = false := by
  rw [statusWord, BitVec.getLsbD_append, if_neg (by decide), BitVec.getLsbD_append, if_neg (by decide),
    BitVec.getLsbD_append, if_neg (by decide)]
  rfl

/-! ## The read operations (R170 to R172) -/

theorem inReadWindow_iff (ph : Phase) (bufLen a : Half) :
    inReadWindow ph bufLen a = true ↔ ph = .done ∧ a.toNat < bufLen.toNat := by
  cases ph <;> simp [inReadWindow, isDone]

@[simp] theorem exec_rdstat (s : State) :
    exec .rdstat s = .next (emit .evNone (some (.status (statusRecord s))) s) := rfl

@[simp] theorem exec_rdhdr (s : State) : exec .rdhdr s = .next (emit .evNone (some (.header s.hdr)) s) := rfl

theorem exec_rdpay_inside {s : State} {a : Half} (h : s.phase = .done ∧ a.toNat < s.bufLen.toNat) :
    exec (.rdpay a) s = .next (emit .evNone (some (.payload (Memory.read s.buf a.toNat))) s) :=
  if_pos ((inReadWindow_iff _ _ _).2 h)

theorem exec_rdpay_outside {s : State} {a : Half} (h : ¬(s.phase = .done ∧ a.toNat < s.bufLen.toNat)) :
    exec (.rdpay a) s = .refused .outsideReadWindow :=
  if_neg (mt (inReadWindow_iff _ _ _).1 h)

/-- An operation that answers a result and emits EV_NONE changes its outputs only (R173). -/
theorem emit_result_effect (res : Option ReadResult) (s : State) :
    Emitted .evNone res s (emit .evNone res s) ∧ SameRegisters s (emit .evNone res s) ∧
      SameBytes s (emit .evNone res s) ∧ SamePorts s (emit .evNone res s) := by
  simp [SameRegisters, Emitted, SameBytes, SamePorts]

/-- A read issues one result, and its next state answers that result again: the registers and bytes it is read from
are still there (R57, R173). -/
theorem exec_read_next {i : Instr} {s t : State} (hi : i = .rdstat ∨ i = .rdhdr ∨ ∃ a, i = .rdpay a)
    (h : exec i s = .next t) : ∃ res, t = emit .evNone res s ∧ exec i t = .next (emit .evNone res t) := by
  rcases hi with rfl | rfl | ⟨a, rfl⟩
  · cases h; exact ⟨_, rfl, rfl⟩
  · cases h; exact ⟨_, rfl, rfl⟩
  · by_cases hw : s.phase = .done ∧ a.toNat < s.bufLen.toNat
    · rw [exec_rdpay_inside hw] at h
      cases h
      exact ⟨_, rfl, exec_rdpay_inside hw⟩
    · rw [exec_rdpay_outside hw] at h
      cases h

/-! ## The obligations -/

/-- Settles O27: a read writes its outputs only, so what it is read from stands for the second read. -/
theorem readsAreRepeatable : Obligations.ReadsAreRepeatable := by
  intro s t i hi h
  obtain ⟨res, rfl, hagain⟩ := exec_read_next hi h
  obtain ⟨-, hregs, hbytes, -⟩ := emit_result_effect res s
  exact ⟨hregs, hbytes, rfl, _, hagain, rfl⟩

/-- Settles O24: RDSTAT returns `statusRecord`, whose STATUS carries its four fields side by side. -/
theorem rdstatReturnsStatusRecord : Obligations.RdstatReturnsStatusRecord := fun s =>
  ⟨_, statusRecord s, exec_rdstat s, statusWord_phase _ _ _, statusWord_hdrMatched _ _ _, statusWord_errCode _ _ _,
    statusWord_top _ _ _, rfl, rfl, rfl, emit_result_effect _ s⟩

/-- Settles O25: RDHDR returns the header registers themselves. -/
theorem rdhdrReturnsHeaderFields : Obligations.RdhdrReturnsHeaderFields := fun s =>
  ⟨_, s.hdr, exec_rdhdr s, rfl, rfl, rfl, rfl, rfl, rfl, emit_result_effect _ s⟩

/-- Settles O26: the read window of RDPAY is phase DONE and an address below `buf_len`, and RDPAY answers by it. -/
theorem rdpayReadsOnlyItsWindow : Obligations.RdpayReadsOnlyItsWindow := fun s _ =>
  ⟨fun hinside => ⟨_, exec_rdpay_inside hinside, emit_result_effect _ s⟩, exec_rdpay_outside⟩

end Sys2Proof.Machine
end

section
/-! What one operation does to a state, said once: the seven updates behind `exec`, the states in which a contribution
is made, and the answers other than a next state. -/

namespace Sys2Proof.Machine

/-- CHUNK(`c`) in `s` contributes the bytes `bs` to the state `u` (R105, R107): the slice after a header load, or the
whole chunk. -/
inductive Contributes (c : List Byte) (s : State) : List Byte → State → Prop
  | frame {i : Nat} {hb : HdrBytes} {slice : List Byte} (hc : contents c = .frame i hb slice) :
      Contributes c s slice (loadHeader (extract s.params.protocolLowNibble hb) s)
  | continuation (hc : contents c = .noMarker) (hm : s.hdrMatched = true) : Contributes c s c s

/-- The states `i` can lead to from `s`, by the update that makes each. -/
inductive Update (i : Instr) (s : State) : State → Prop
  | opened (hi : i = .start) : Update i s (openSession s)
  | silent (hi : i ≠ .start) (res : Option ReadResult) : Update i s (emit .evNone res s)
  | timedOut (hi : i = .cancel) (ha : isActive s.phase = true) :
      Update i s (enterFailed .timeout (s.bufLen.setWidth 32) s)
  | malformed {c : List Byte} (hi : chunkOf s.params.protocolLowNibble i = some c) (ha : isActive s.phase = true)
      (k : Nat) : Update i s (enterFailed .malformedHeader (BitVec.ofNat 32 k) s)
  | overDelivered {c bs : List Byte} {u : State} (hi : chunkOf s.params.protocolLowNibble i = some c)
      (ha : isActive s.phase = true) (hu : Contributes c s bs u) (hlen : u.remaining.toNat < bs.length) :
      Update i s (enterFailed .overDelivery (u.hdr.size.setWidth 32) u)
  | completed {c bs : List Byte} {u : State} (hi : chunkOf s.params.protocolLowNibble i = some c)
      (ha : isActive s.phase = true) (hu : Contributes c s bs u) (hlen : bs.length = u.remaining.toNat)
      (hroom : u.bufLen.toNat + bs.length ≤ bufBytes) : Update i s (completePayload (appendBytes bs u))
  | collected {c bs : List Byte} {u : State} (hi : chunkOf s.params.protocolLowNibble i = some c)
      (ha : isActive s.phase = true) (hu : Contributes c s bs u) (hlen : bs.length < u.remaining.toNat)
      (hroom : u.bufLen.toNat + bs.length ≤ bufBytes) : Update i s (keepCollecting (appendBytes bs u))

theorem update_of_contribute {i : Instr} {s t u : State} {c bs : List Byte}
    (hi : chunkOf s.params.protocolLowNibble i = some c) (ha : isActive s.phase = true) (hu : Contributes c s bs u)
    (h : contribute bs u = .next t) : Update i s t := by
  rcases contribute_cases bs u with ⟨hlen, he⟩ | ⟨-, -, he⟩ | ⟨hlen, hroom, he⟩ | ⟨hlen, hroom, he⟩ <;>
    rw [he] at h <;> cases h
  · exact .overDelivered hi ha hu hlen
  · exact .completed hi ha hu hlen hroom
  · exact .collected hi ha hu hlen hroom

/-- START performs no CHUNK. -/
theorem ne_start_of_chunkOf {low : Bool} {i : Instr} {c : List Byte} (h : chunkOf low i = some c) : i ≠ .start := by
  rintro rfl
  cases h

/-- Every next state of an operation is one of the seven updates. -/
theorem exec_update {i : Instr} {s t : State} (h : exec i s = .next t) : Update i s t := by
  rcases exec_next h with ⟨hi, rfl⟩ | ⟨hi, ha, rfl⟩ | ⟨c, hi, hc⟩ | ⟨hi, -, -, res, rfl⟩
  · exact .opened hi
  · exact .timedOut hi ha
  · obtain ⟨-, hcase⟩ := performChunk_next hc
    rcases hcase with ⟨-, rfl⟩ | ⟨-, -, -, rfl⟩ | ⟨ha, k, -, rfl⟩ | ⟨ha, bs, u, hu, ht⟩
    · exact .silent (ne_start_of_chunkOf hi) none
    · exact .silent (ne_start_of_chunkOf hi) none
    · exact .malformed hi ha k
    · rcases hu with ⟨_, _, hframe, rfl⟩ | ⟨hnone, hm, rfl, rfl⟩
      · exact update_of_contribute hi ha (.frame hframe) ht
      · exact update_of_contribute hi ha (.continuation hnone hm) ht
  · exact .silent hi res

/-- No operation changes the parameters (R38). -/
theorem exec_params {i : Instr} {s t : State} (h : exec i s = .next t) : t.params = s.params := by
  cases exec_update h with
  | opened | silent | timedOut | malformed => rfl
  | overDelivered _ _ hu | completed _ _ hu | collected _ _ hu => cases hu <;> rfl

/-- In an inactive phase an operation other than START changes its outputs only (R101, R153, R173). -/
theorem exec_inactive {i : Instr} {s t : State} (ha : isActive s.phase = false) (hi : i ≠ .start)
    (h : exec i s = .next t) : ∃ res, t = emit .evNone res s := by
  cases exec_update h with
  | opened hstart => exact absurd hstart hi
  | silent _ res => exact ⟨res, rfl⟩
  | timedOut _ ha' | malformed _ ha' | overDelivered _ ha' | completed _ ha' | collected _ ha' => simp [ha] at ha'

end Sys2Proof.Machine
end

section
/-! The invariant (10_state.md R35, 20_memory.md R58, 43_readout.md R174), part by part: each update keeps the registers'
part, the error part and the buffer's part, and leaves an event that says what the registers hold. -/

namespace Sys2Proof.Machine

theorem active_of_isActive {ph : Phase} (h : isActive ph = true) : ph = .hunt ∨ ph = .collect := by
  cases ph <;> simp [isActive] at h ⊢

/-! ## The registers (R35) -/

/-- What R35 says of the registers where a contribution is made (R130): a header, no error, counters that add up. -/
structure Receiving (b : Block) : Prop where
  hdrMatched : b.hdrMatched = true
  errCode : b.errCode = .none
  errOffset : b.errOffset = 0#32
  sum : b.bufLen.toNat + b.remaining.toNat = b.hdr.size.toNat

/-- In an active phase no error stands (R35). -/
theorem RegistersInv.no_error {b : Block} (h : RegistersInv b) (ha : isActive b.phase = true) :
    b.errCode = .none ∧ b.errOffset = 0#32 := by
  obtain ⟨-, hhunt, hcollect, -, -⟩ := h
  rcases active_of_isActive ha with hph | hph
  · obtain ⟨-, -, -, -, hcode, hoff⟩ := hhunt hph
    exact ⟨hcode, hoff⟩
  · obtain ⟨-, hcode, hoff, -⟩ := hcollect hph
    exact ⟨hcode, hoff⟩

/-- In HUNT no header is matched (R35), so an active phase with a header is COLLECT. -/
theorem RegistersInv.collect_of_matched {b : Block} (h : RegistersInv b) (ha : isActive b.phase = true)
    (hm : b.hdrMatched = true) : b.phase = .collect := by
  obtain ⟨-, hhunt, -⟩ := h
  rcases active_of_isActive ha with hph | hph
  · simp [(hhunt hph).1] at hm
  · exact hph

theorem RegistersInv.receiving_of_collect {b : Block} (h : RegistersInv b) (hph : b.phase = .collect) :
    Receiving b := by
  obtain ⟨-, -, hcollect, -⟩ := h
  obtain ⟨hm, hcode, hoff, -, -, hsum⟩ := hcollect hph
  exact ⟨hm, hcode, hoff, hsum⟩

/-- R130 is invoked on registers that R35 describes. -/
theorem Contributes.receiving {c bs : List Byte} {s u : State} (hu : Contributes c s bs u)
    (hs : RegistersInv s.toBlock) (ha : isActive s.phase = true) : Receiving u.toBlock := by
  cases hu with
  | frame => exact ⟨rfl, (hs.no_error ha).1, (hs.no_error ha).2, by simp⟩
  | continuation _ hm => exact hs.receiving_of_collect (hs.collect_of_matched ha hm)

theorem registersInv_openSession (s : State) : RegistersInv (openSession s).toBlock := by
  simp [RegistersInv, RegistersZero]

/-- Error entry keeps R35 where the counters of a matched header add up and an unmatched one is zero. -/
theorem registersInv_enterFailed {e : ErrCode} (o : Offset) {s : State} (he : e ≠ .none)
    (hsum : s.hdrMatched = true → s.bufLen.toNat + s.remaining.toNat = s.hdr.size.toNat)
    (hzero : s.hdrMatched = false → s.hdr = zeroHeader ∧ s.bufLen = 0#16 ∧ s.remaining = 0#16) :
    RegistersInv (enterFailed e o s).toBlock :=
  ⟨fun h => by simp at h, fun h => by simp at h, fun h => by simp at h, fun h => by simp at h,
    fun _ => ⟨he, hsum, hzero⟩⟩

theorem registersInv_enterFailed_of_active {e : ErrCode} (o : Offset) {s : State} (hs : RegistersInv s.toBlock)
    (ha : isActive s.phase = true) (he : e ≠ .none) : RegistersInv (enterFailed e o s).toBlock := by
  refine registersInv_enterFailed o he (fun hm => (hs.receiving_of_collect (hs.collect_of_matched ha hm)).sum) ?_
  intro hm
  obtain ⟨-, hhunt, hcollect, -⟩ := hs
  rcases active_of_isActive ha with hph | hph
  · obtain ⟨-, hhdr, hrem, hlen, -⟩ := hhunt hph
    exact ⟨hhdr, hlen, hrem⟩
  · simp [(hcollect hph).1] at hm

/-- The counters after an append that the owed bytes and the buffer allow (R130). -/
theorem appendBytes_counters {bs : List Byte} {u : State} (hlen : bs.length ≤ u.remaining.toNat)
    (hroom : u.bufLen.toNat + bs.length ≤ bufBytes) :
    (appendBytes bs u).bufLen.toNat = u.bufLen.toNat + bs.length ∧
      (appendBytes bs u).remaining.toNat = u.remaining.toNat - bs.length := by
  rw [bufBytes] at hroom
  rw [appendBytes_bufLen, appendBytes_remaining]
  constructor <;> bv_omega

theorem Receiving.after_append {bs : List Byte} {u : State} (hu : Receiving u.toBlock)
    (hlen : bs.length ≤ u.remaining.toNat) :
    Receiving (appendBytes bs u).toBlock ∧ (appendBytes bs u).bufLen.toNat = u.bufLen.toNat + bs.length ∧
      (appendBytes bs u).remaining.toNat = u.remaining.toNat - bs.length := by
  obtain ⟨hm, hcode, hoff, hsum⟩ := hu
  have hsize := u.hdr.size.isLt
  have ⟨hbuf, hrem⟩ := appendBytes_counters hlen (by rw [bufBytes]; omega)
  exact ⟨⟨hm, hcode, hoff, by rw [hbuf, hrem, appendBytes_hdr]; omega⟩, hbuf, hrem⟩

theorem registersInv_completePayload {u : State} (hu : Receiving u.toBlock) (hrem : u.remaining.toNat = 0) :
    RegistersInv (completePayload u).toBlock := by
  obtain ⟨hm, hcode, hoff, hsum⟩ := hu
  exact ⟨fun h => by simp at h, fun h => by simp at h, fun h => by simp at h,
    fun _ => ⟨hm, hcode, hoff, BitVec.eq_of_toNat_eq hrem, BitVec.eq_of_toNat_eq (by simp; omega)⟩, fun h => by simp at h⟩

theorem registersInv_keepCollecting {u : State} (hu : Receiving u.toBlock) (hrem : 1 ≤ u.remaining.toNat) :
    RegistersInv (keepCollecting u).toBlock := by
  obtain ⟨hm, hcode, hoff, hsum⟩ := hu
  exact ⟨fun h => by simp at h, fun h => by simp at h, fun _ => ⟨hm, hcode, hoff, hrem, by simp; omega, hsum⟩,
    fun h => by simp at h, fun h => by simp at h⟩

/-- Every operation keeps R35. -/
theorem exec_keeps_registersInv {i : Instr} {s t : State} (hs : RegistersInv s.toBlock) (h : exec i s = .next t) :
    RegistersInv t.toBlock := by
  cases exec_update h with
  | opened => exact registersInv_openSession s
  | silent => exact hs
  | timedOut _ ha => exact registersInv_enterFailed_of_active _ hs ha (by simp)
  | malformed _ ha => exact registersInv_enterFailed_of_active _ hs ha (by simp)
  | overDelivered _ ha hu =>
    have hrec := hu.receiving hs ha
    exact registersInv_enterFailed _ (by simp) (fun _ => hrec.sum) (fun hm => by simp [hrec.hdrMatched] at hm)
  | completed _ ha hu hlen =>
    obtain ⟨hrec, -, hrem⟩ := (hu.receiving hs ha).after_append hlen.le
    exact registersInv_completePayload hrec (by omega)
  | collected _ ha hu hlen =>
    obtain ⟨hrec, -, hrem⟩ := (hu.receiving hs ha).after_append hlen.le
    exact registersInv_keepCollecting hrec (by omega)

/-! ## The error registers (R33, R191) -/

theorem errorInv_of_no_error {b : Block} (hcode : b.errCode = .none) (hoff : b.errOffset = 0#32) : ErrorInv b := by
  simp [ErrorInv, hcode, hoff]

/-- Every operation keeps R33 and R191. -/
theorem exec_keeps_errorInv {i : Instr} {s t : State} (hs : RegistersInv s.toBlock) (he : ErrorInv s.toBlock)
    (h : exec i s = .next t) : ErrorInv t.toBlock := by
  cases exec_update h with
  | opened => exact errorInv_of_no_error rfl rfl
  | silent => exact he
  | timedOut | malformed => simp [ErrorInv]
  | overDelivered _ ha hu => simp [ErrorInv, (hu.receiving hs ha).hdrMatched]
  | completed _ ha hu | collected _ ha hu =>
    exact errorInv_of_no_error (hu.receiving hs ha).errCode (hu.receiving hs ha).errOffset

/-! ## The buffer (R30, R50, R52, R58) -/

/-- A header load leaves the buffer where it stands (R105). -/
theorem Contributes.buf_eq {c bs : List Byte} {s u : State} (hu : Contributes c s bs u) : u.buf = s.buf := by
  cases hu <;> rfl

theorem wf_appendBytes {bs : List Byte} {u : State} (hwf : Memory.wf u.buf = true)
    (hroom : u.bufLen.toNat + bs.length ≤ bufBytes) : Memory.wf (appendBytes bs u).buf = true :=
  Memory.wf_writeBytes _ _ _ hwf hroom

/-- Settles O40: only an append writes the buffer, and its last address is one of `BUF`. -/
theorem operationsKeepBufferCanonical : Obligations.OperationsKeepBufferCanonical := by
  intro s t i hwf h
  cases exec_update h with
  | opened | silent | timedOut | malformed => exact hwf
  | overDelivered _ _ hu => exact hu.buf_eq ▸ hwf
  | completed _ _ hu _ hroom | collected _ _ hu _ hroom => exact wf_appendBytes (hu.buf_eq ▸ hwf) hroom

/-- Every address below `buf_len` has been written (R30, R52). -/
abbrev Written (b : Block) : Prop := ∀ a < b.bufLen.toNat, (Memory.lookup b.buf a).isSome = true

theorem Contributes.written {c bs : List Byte} {s u : State} (hu : Contributes c s bs u) (hs : Written s.toBlock) :
    Written u.toBlock := by
  cases hu with
  | frame => exact fun a ha => by simp at ha
  | continuation => exact hs

/-- An append writes the addresses it moves `buf_len` over. -/
theorem written_appendBytes {bs : List Byte} {u : State} (hu : Written u.toBlock)
    (hlen : (appendBytes bs u).bufLen.toNat = u.bufLen.toNat + bs.length) : Written (appendBytes bs u).toBlock := by
  intro a ha
  rw [appendBytes_buf, Memory.lookup_writeBytes]
  split
  · exact Option.isSome_iff_exists.2 ⟨_, List.getElem?_eq_getElem (by omega)⟩
  · exact hu a (by omega)

/-- Every operation keeps the bytes below `buf_len` written. -/
theorem exec_keeps_written {i : Instr} {s t : State} (hs : RegistersInv s.toBlock) (hw : Written s.toBlock)
    (h : exec i s = .next t) : Written t.toBlock := by
  cases exec_update h with
  | opened => exact fun a ha => by simp at ha
  | silent | timedOut | malformed => exact hw
  | overDelivered _ _ hu => exact hu.written hw
  | completed _ ha hu hlen =>
    exact written_appendBytes (hu.written hw) ((hu.receiving hs ha).after_append hlen.le).2.1
  | collected _ ha hu hlen =>
    exact written_appendBytes (hu.written hw) ((hu.receiving hs ha).after_append hlen.le).2.1

/-! ## The event (R39) -/

/-- The event an operation emits says what its final state holds (R39). -/
theorem exec_outputInv {i : Instr} {s t : State} (h : exec i s = .next t) : OutputInv t := by
  cases exec_update h with
  | opened | silent | collected => trivial
  | timedOut | malformed | overDelivered | completed => exact ⟨rfl, rfl, rfl⟩

/-! ## The whole invariant -/

theorem exec_keeps_inv {i : Instr} {s t : State} (hs : s.Inv) (h : exec i s = .next t) : t.Inv := by
  obtain ⟨hregs, herr, ⟨hwf, hwritten⟩, -⟩ := hs
  exact ⟨exec_keeps_registersInv hregs h, exec_keeps_errorInv hregs herr h,
    ⟨operationsKeepBufferCanonical s t i hwf h, exec_keeps_written hregs hwritten h⟩, exec_outputInv h⟩

/-- The invariant speaks of the thirteen items and of the output alone. -/
theorem State.Inv.of_same {s t : State} (hs : s.Inv) (hb : t.toBlock = s.toBlock) (ho : t.out = s.out) : t.Inv := by
  obtain ⟨hregs, herr, hbuf, hout⟩ := hs
  refine ⟨hb ▸ hregs, hb ▸ herr, hb ▸ hbuf, ?_⟩
  simpa only [OutputInv, hb, ho] using hout

theorem State.Inv.with_inputs {s : State} (hs : s.Inv) (l : List Stimulus) : ({ s with inputs := l } : State).Inv :=
  hs.of_same rfl rfl

theorem State.Inv.wf_buf {s : State} (hs : s.Inv) : Memory.wf s.buf = true := by
  obtain ⟨-, -, ⟨hwf, -⟩, -⟩ := hs
  exact hwf

/-- The registers of R43 over a canonical buffer meet the invariant in IDLE. -/
theorem inv_of_idle {t : State} (hph : t.phase = .idle) (hm : t.hdrMatched = false) (hzero : RegistersZero t.toBlock)
    (hwf : Memory.wf t.buf = true) (hev : t.out.event = .evNone) : t.Inv := by
  obtain ⟨hhdr, hrem, hlen, hcode, hoff⟩ := hzero
  refine ⟨?_, errorInv_of_no_error hcode hoff, ⟨hwf, fun a ha => by simp [hlen] at ha⟩, ?_⟩
  · simp [RegistersInv, RegistersZero, hph, hm, hhdr, hrem, hlen, hcode, hoff]
  · simp only [OutputInv, hev]

theorem inv_hardReset {s : State} (hwf : Memory.wf s.buf = true) : (hardReset s).Inv :=
  inv_of_idle rfl rfl ⟨rfl, rfl, rfl, rfl, rfl⟩ hwf rfl

theorem inv_resetEdge {s : State} (hwf : Memory.wf s.buf = true) : (resetEdge s).Inv :=
  inv_of_idle rfl rfl ⟨rfl, rfl, rfl, rfl, rfl⟩ hwf rfl

theorem pinCycle_keeps_inv {s : State} (p : PinIn) (hs : s.Inv) : (pinCycle p s).Inv := by
  unfold pinCycle
  split
  · exact inv_resetEdge hs.wf_buf
  · exact hs.of_same rfl rfl

/-- Settles O39: an operation keeps each part of the invariant; a reset leaves its registers, a clock cycle and an
empty request touch none of it. -/
theorem stepKeepsInvariant : Obligations.StepKeepsInvariant := by
  intro s t hs h
  rcases step_cases s with ⟨-, he⟩ | ⟨more, -, he⟩ | ⟨p, more, -, he⟩ | ⟨w, more, -, he⟩ | ⟨w, more, i, rest, -, -, he⟩ |
    ⟨w, more, -, he⟩ <;> rw [he] at h
  · cases h; exact hs
  · cases h; exact inv_hardReset (s := { s with inputs := more }) hs.wf_buf
  · cases h; exact pinCycle_keeps_inv p (hs.with_inputs more)
  · cases h; exact hs.with_inputs more
  · exact exec_keeps_inv (hs.with_inputs _) h
  · cases h

/-- Settles O38: right after reset every register is 0 and the buffer lists nothing. -/
theorem resetStateMeetsInvariant : Obligations.ResetStateMeetsInvariant :=
  ⟨inv_of_idle rfl rfl ⟨rfl, rfl, rfl, rfl, rfl⟩ Memory.wf_reset rfl, rfl, rfl, rfl, rfl⟩

end Sys2Proof.Machine
end

section
/-! Encodings (30_encoding.md): header composition and extraction, the frame decoder, then decode and encode. -/

namespace Sys2Proof.Machine

/-! ## The shared bytes (R74 to R78, R88) -/

theorem shareByte_true_toNat (field : Nibble) (ident : Ident) :
    (shareByte true field ident).toNat = ident.toNat % 16 * 16 + field.toNat := by
  have hnibble : ident.setWidth 8 <<< 4 = (ident.setWidth 4).setWidth 8 <<< 4 := by bv_omega
  have hident : ((ident.setWidth 4).setWidth 8).toNat = ident.toNat % 16 :=
    BitVec.toNat_setWidth_of_le (by decide)
  have hfield : (field.setWidth 8).toNat = field.toNat := BitVec.toNat_setWidth_of_le (by decide)
  calc (ident.setWidth 8 <<< 4 ||| field.setWidth 8).toNat
      = ident.toNat % 16 * 2 ^ 4 + field.toNat := by
        rw [hnibble, toNat_shiftLeft_or _ _ 4 (by rw [hident]; omega) (by rw [hfield]; omega), hident, hfield]

theorem shareByte_false_toNat (field : Nibble) (ident : Ident) :
    (shareByte false field ident).toNat = field.toNat * 16 + ident.toNat % 16 := by
  have hident : ((ident.setWidth 4).setWidth 8).toNat = ident.toNat % 16 :=
    BitVec.toNat_setWidth_of_le (by decide)
  have hfield : (field.setWidth 8).toNat = field.toNat := BitVec.toNat_setWidth_of_le (by decide)
  calc (field.setWidth 8 <<< 4 ||| (ident.setWidth 4).setWidth 8).toNat
      = field.toNat * 2 ^ 4 + ident.toNat % 16 := by
        rw [toNat_shiftLeft_or _ _ 4 (by rw [hfield]; omega) (by rw [hident]; omega), hident, hfield]

theorem sharedField_shareByte (low : Bool) (field : Nibble) (ident : Ident) :
    sharedField low (shareByte low field ident) = field := by
  apply BitVec.eq_of_toNat_eq
  cases low
  · rw [sharedField_false_toNat, shareByte_false_toNat]; omega
  · rw [sharedField_true_toNat, shareByte_true_toNat]; omega

theorem high_toNat (ident : Ident) : ((ident >>> 4).setWidth 8).toNat = ident.toNat / 16 := by
  have := ident.isLt
  simp [Nat.shiftRight_eq_div_pow]
  omega

theorem sharedIdent_shareByte (low : Bool) (field : Nibble) (ident : Ident) :
    sharedIdent low (shareByte low field ident) ((ident >>> 4).setWidth 8) = ident := by
  apply BitVec.eq_of_toNat_eq
  cases low
  · rw [sharedIdent_false_toNat, shareByte_false_toNat, high_toNat]; omega
  · rw [sharedIdent_true_toNat, shareByte_true_toNat, high_toNat]; omega

theorem shareByte_of_shared (low : Bool) (shared next : Byte) :
    shareByte low (sharedField low shared) (sharedIdent low shared next) = shared := by
  apply BitVec.eq_of_toNat_eq
  cases low
  · rw [shareByte_false_toNat, sharedField_false_toNat, sharedIdent_false_toNat]; omega
  · rw [shareByte_true_toNat, sharedField_true_toNat, sharedIdent_true_toNat]; omega

theorem high_of_shared (low : Bool) (shared next : Byte) :
    ((sharedIdent low shared next >>> 4).setWidth 8 : Byte) = next := by
  apply BitVec.eq_of_toNat_eq
  rw [high_toNat]
  cases low
  · rw [sharedIdent_false_toNat]; omega
  · rw [sharedIdent_true_toNat]; omega

/-! ## The header (R80, R88) -/

@[simp] theorem extract_hdrBytes (low : Bool) (h : Header) : extract low (hdrBytes low h) = h := by
  have hsize : (extract low (hdrBytes low h)).size = h.size := by
    apply BitVec.eq_of_toNat_eq
    rw [extract_size_toNat]
    simp [hdrBytes, Nat.shiftRight_eq_div_pow]
    omega
  calc extract low (hdrBytes low h)
      = ⟨_, _, _, _, h.cmd, (extract low (hdrBytes low h)).size⟩ := rfl
    _ = h := by
      rw [hsize]
      simp [hdrBytes, sharedField_shareByte, sharedIdent_shareByte]

@[simp] theorem hdrBytes_extract (low : Bool) (h : HdrBytes) : hdrBytes low (extract low h) = h := by
  have hsize := extract_size_toNat low h
  have h5 : (extract low h).size.setWidth 8 = h.h5 := by
    apply BitVec.eq_of_toNat_eq
    rw [BitVec.toNat_setWidth, hsize]
    omega
  have h6 : ((extract low h).size >>> 8).setWidth 8 = h.h6 := by
    apply BitVec.eq_of_toNat_eq
    rw [BitVec.toNat_setWidth, BitVec.toNat_ushiftRight, hsize, Nat.shiftRight_eq_div_pow]
    omega
  rw [hdrBytes, h5, h6]
  simp [extract, shareByte_of_shared, high_of_shared]

/-- Settles O45: field by field, by the arithmetic of the shared bytes and of `size`. -/
theorem headerComposeAndExtractAreInverse : Obligations.HeaderComposeAndExtractAreInverse :=
  fun low => ⟨extract_hdrBytes low, hdrBytes_extract low⟩

/-! ## The frame decoder (R71, R74) -/

/-- The frame decoder reads exactly the composed wire units. -/
theorem decodeFrame_eq_ok_iff (low : Bool) (bytes : List Byte) (h : Header) (slice : List Byte) :
    decodeFrame low bytes = .ok (h, slice) ↔ bytes = frameBytes low h slice := by
  constructor
  · intro hd
    unfold decodeFrame at hd
    split at hd
    · rename_i hmark
      have hstart : bytes.take markerLen = mark := of_decide_eq_true hmark
      split at hd
      · rename_i hb slice' hsplit
        cases hd
        rw [splitHeader_eq_some_iff] at hsplit
        rw [frameBytes, hdrBytes_extract, List.append_assoc, ← hsplit, ← hstart, List.take_append_drop]
      · cases hd
    · cases hd
  · rintro rfl
    have hsplit : splitHeader ((frameBytes low h slice).drop markerLen) = some (hdrBytes low h, slice) :=
      (splitHeader_eq_some_iff _ _ _).2 rfl
    have hmark : startsWithMark (frameBytes low h slice) = true := decide_eq_true rfl
    rw [decodeFrame, if_pos hmark, hsplit]
    simp

/-! ## The decoder (R82, R83, R100) -/

theorem decodeChunk_fits {ctx : DecodeContext} {c : List Byte} (hc : chunkFits ctx.params c = true) :
    decodeChunk ctx c = .ok (selectRow ctx c) := if_pos hc

/-- A request for a CHUNK that fits reads as the row the context selects. -/
theorem decode_chunkRequest {ctx : DecodeContext} {c : List Byte} (hc : chunkFits ctx.params c = true) :
    decode ctx (.request 0b001#3 c) = .ok (selectRow ctx c, none) := by
  simp [decode, reqCancel, reqStart, reqCommit, decodeChunk_fits hc, Except.map]

theorem decode_frameBytes {ctx : DecodeContext} {h : Header} {slice : List Byte}
    (hc : chunkFits ctx.params (frameBytes ctx.params.protocolLowNibble h slice) = true) :
    decode ctx (.wire (frameBytes ctx.params.protocolLowNibble h slice)) = .ok (.frameHdr h slice, none) := by
  rw [decode, if_pos hc, (decodeFrame_eq_ok_iff _ _ _ _).2 rfl]

/-- A well-formed instruction that performs CHUNK has a chunk of at most CHUNK_MAX bytes. -/
theorem chunkFits_of_wellFormed {p : Params} {i : Instr} {c : List Byte} (hi : i.wellFormed p = true)
    (hc : chunkOf p.protocolLowNibble i = some c) : chunkFits p c = true := by
  cases i <;> simp [chunkOf] at hc <;> subst hc <;> simp_all [Instr.wellFormed]

/-- Settles O47: a CHUNK row is the row the context selects for its chunk, a wire unit is read back by the frame
decoder, and every other word reads as one instruction. -/
theorem decodeOfEncodeIsTheInstruction : Obligations.DecodeOfEncodeIsTheInstruction := by
  intro ctx i hwf hsel
  have hchunk (c : List Byte) (hc : chunkOf ctx.params.protocolLowNibble i = some c) (hrow : selectRow ctx c = i) :
      decode ctx (.request 0b001#3 c) = .ok (i, none) := by
    rw [decode_chunkRequest (chunkFits_of_wellFormed hwf hc), hrow]
  cases i with
  | start | cancel | rdstat | rdhdr | rdpay => rfl
  | chunkIgnored c | chunkSync c | chunkMalformed c | chunkCont c | chunkNoise c =>
    exact hchunk c rfl (of_decide_eq_true hsel)
  | frameHdr h slice => exact decode_frameBytes hwf

/-- The five rows a chunk can be, with what each asks of the contents (R100 and the table's `select`). -/
theorem selectRow_cases (ctx : DecodeContext) (c : List Byte) :
    selectRow ctx c = .chunkIgnored c ∨
    (selectRow ctx c = .chunkSync c ∧ ∃ i h slice, contents c = .frame i h slice) ∨
    (selectRow ctx c = .chunkMalformed c ∧ ∃ i, contents c = .shortHeader i) ∨
    (selectRow ctx c = .chunkCont c ∧ contents c = .noMarker) ∨
    (selectRow ctx c = .chunkNoise c ∧ contents c = .noMarker) := by
  unfold selectRow chunkCase
  cases isActive ctx.phase with
  | false => exact .inl rfl
  | true =>
    rw [if_pos rfl]
    cases contents c with
    | frame i h slice => exact .inr (.inl ⟨rfl, i, h, slice, rfl⟩)
    | shortHeader i => exact .inr (.inr (.inl ⟨rfl, i, rfl⟩))
    | noMarker =>
      cases ctx.hdrMatched with
      | true => exact .inr (.inr (.inr (.inl ⟨rfl, rfl⟩)))
      | false => exact .inr (.inr (.inr (.inr ⟨rfl, rfl⟩)))

theorem selectRow_selectedIn (ctx : DecodeContext) (c : List Byte) : (selectRow ctx c).selectedIn ctx = true := by
  rcases selectRow_cases ctx c with h | ⟨h, -⟩ | ⟨h, -⟩ | ⟨h, -⟩ | ⟨h, -⟩ <;> simp [h, Instr.selectedIn]

theorem selectRow_wellFormed {ctx : DecodeContext} {c : List Byte} (hc : chunkFits ctx.params c = true) :
    (selectRow ctx c).wellFormed ctx.params = true := by
  rcases selectRow_cases ctx c with h | ⟨h, i, hb, slice, hcont⟩ | ⟨h, i, hcont⟩ | ⟨h, hcont⟩ | ⟨h, hcont⟩ <;>
    simp [Instr.wellFormed, *]

/-- What the decoder reads: a request of the controller, a read, or, of bytes that fit, a selected row or a frame. -/
theorem decode_ok_cases {ctx : DecodeContext} {w : PortWord} {i : Instr} {rest : Option PortWord}
    (h : decode ctx w = .ok (i, rest)) :
    i = .cancel ∨ i = .start ∨ (w = .sampleStatus ∧ i = .rdstat) ∨ (w = .sampleHeader ∧ i = .rdhdr) ∨
    (∃ a, w = .readAddress a ∧ i = .rdpay a) ∨
    (∃ c, chunkFits ctx.params c = true ∧ i = selectRow ctx c) ∨
    (∃ hd slice, chunkFits ctx.params (frameBytes ctx.params.protocolLowNibble hd slice) = true ∧
      i = .frameHdr hd slice) := by
  cases w with
  | request req c =>
    simp only [decode] at h
    split at h
    · cases h; exact .inl rfl
    · split at h
      · cases h; exact .inr (.inl rfl)
      · split at h
        · cases hc : chunkFits ctx.params c with
          | true =>
            rw [decodeChunk_fits hc] at h
            cases h
            exact .inr (.inr (.inr (.inr (.inr (.inl ⟨c, hc, rfl⟩)))))
          | false => simp [decodeChunk, hc, Except.map] at h
        · cases h
  | sampleStatus => cases h; exact .inr (.inr (.inl ⟨rfl, rfl⟩))
  | sampleHeader => cases h; exact .inr (.inr (.inr (.inl ⟨rfl, rfl⟩)))
  | readAddress a => cases h; exact .inr (.inr (.inr (.inr (.inl ⟨a, rfl, rfl⟩))))
  | wire bytes =>
    simp only [decode] at h
    split at h
    · rename_i hc
      split at h
      · rename_i hd slice hframe
        cases h
        rw [decodeFrame_eq_ok_iff] at hframe
        exact .inr (.inr (.inr (.inr (.inr (.inr ⟨hd, slice, hframe ▸ hc, rfl⟩)))))
      · cases h; exact .inr (.inr (.inr (.inr (.inr (.inl ⟨bytes, hc, rfl⟩)))))
    · cases h

/-- Settles O48: the decoder reads the row the context selects, or a frame that it has measured itself. -/
theorem decodedInstructionIsWellFormed : Obligations.DecodedInstructionIsWellFormed := by
  intro ctx w i rest h
  rcases decode_ok_cases h with rfl | rfl | ⟨-, rfl⟩ | ⟨-, rfl⟩ | ⟨a, -, rfl⟩ | ⟨c, hc, rfl⟩ | ⟨hd, slice, hc, rfl⟩
  · exact ⟨rfl, rfl⟩
  · exact ⟨rfl, rfl⟩
  · exact ⟨rfl, rfl⟩
  · exact ⟨rfl, rfl⟩
  · exact ⟨rfl, rfl⟩
  · exact ⟨selectRow_wellFormed hc, selectRow_selectedIn ctx c⟩
  · exact ⟨hc, rfl⟩

/-- Only the word that drives an address reads as RDPAY (R83). -/
theorem eq_readAddress_of_decode_rdpay {ctx : DecodeContext} {w : PortWord} {a : Half} {rest : Option PortWord}
    (h : decode ctx w = .ok (.rdpay a, rest)) : w = .readAddress a := by
  rcases decode_ok_cases h with hi | hi | ⟨-, hi⟩ | ⟨-, hi⟩ | ⟨b, hw, hi⟩ | ⟨c, -, hi⟩ | ⟨hd, slice, -, hi⟩
  · cases hi
  · cases hi
  · cases hi
  · cases hi
  · cases hi; exact hw
  · rcases selectRow_cases ctx c with hr | ⟨hr, -⟩ | ⟨hr, -⟩ | ⟨hr, -⟩ | ⟨hr, -⟩ <;> rw [hr] at hi <;> cases hi
  · cases hi

/-- The decoder rejects a word as too long exactly for the chunk it carries. -/
theorem decode_chunkTooLong {ctx : DecodeContext} {w : PortWord} (h : decode ctx w = .error .chunkTooLong) :
    ∃ c, ctx.params.chunkMax.toNat < c.length ∧ ((∃ req, w = .request req c) ∨ w = .wire c) := by
  have htoolong (c : List Byte) (hc : chunkFits ctx.params c ≠ true) : ctx.params.chunkMax.toNat < c.length := by
    rwa [Ne, chunkFits_iff, not_le] at hc
  cases w with
  | request req c =>
    refine ⟨c, htoolong c fun hc => ?_, .inl ⟨req, rfl⟩⟩
    simp only [decode, decodeChunk_fits hc] at h
    split at h
    · cases h
    · split at h
      · cases h
      · split at h <;> cases h
  | sampleStatus | sampleHeader | readAddress => cases h
  | wire bytes =>
    refine ⟨bytes, htoolong bytes fun hc => ?_, .inr rfl⟩
    simp only [decode, if_pos hc] at h
    split at h <;> cases h

/-! ## Words and lines written out -/

/-- Settles O46: each word is read by evaluation. -/
theorem writtenWordsDecode : Obligations.WrittenWordsDecode := by
  unfold Obligations.WrittenWordsDecode
  decide

/-- Settles O49: each line is assembled by evaluation. -/
theorem notationLinesAssemble : Obligations.NotationLinesAssemble := by
  unfold Obligations.NotationLinesAssemble
  decide

end Sys2Proof.Machine
end

section
/-! Steps (00_scope.md R4, R7, R11; 70_reset_and_hazards.md R220): a step by the stimulus at the head of `inputs`, then
the obligations about faults, refusals, reset and the parameters. -/

namespace Sys2Proof.Machine

/-! ## A step by its stimulus -/

section

variable {s : State} {w : PortWord} {more : List Stimulus}

/-- A word that decodes is performed, with what it still requests put back in front. -/
theorem step_of_decode {i : Instr} {rest : Option PortWord} (hi : s.inputs = .port w :: more)
    (hd : decode (decodeContext s) w = .ok (i, rest)) : step s = exec i { s with inputs := putBack rest more } := by
  have hctx : decodeContext { s with inputs := more } = decodeContext s := rfl
  simp [step, fetch, fetchWord, hi, hctx, hd]

/-- Of the words that do not decode only a chunk longer than CHUNK_MAX stops the machine (R11, R83). -/
theorem step_of_reject {e : Reject} (hi : s.inputs = .port w :: more) (hd : decode (decodeContext s) w = .error e) :
    step s = if e = .chunkTooLong then .refused .chunkTooLong else .next { s with inputs := more } := by
  have hctx : decodeContext { s with inputs := more } = decodeContext s := rfl
  cases e <;> simp [step, fetch, fetchWord, hi, hctx, hd]

theorem step_reset (hi : s.inputs = .reset :: more) : step s = .next (hardReset { s with inputs := more }) := by
  simp [step, fetch, hi]

theorem step_cycle {p : PinIn} (hi : s.inputs = .cycle p :: more) :
    step s = .next (pinCycle p { s with inputs := more }) := by
  simp [step, fetch, hi]

end

/-- Settles O50: this is how a step treats a word that decodes. -/
theorem stepRunsDecodedInstruction : Obligations.StepRunsDecodedInstruction :=
  fun _ _ _ _ _ hi hd => step_of_decode hi hd

/-- Settles O51: without a stimulus there is nothing to fetch, and `req` = 0b000 decodes to no operation. -/
theorem nothingHappensUnrequested : Obligations.NothingHappensUnrequested := by
  intro s
  constructor
  · intro hi
    simp [step, fetch, hi]
  · intro c more hi
    exact step_of_reject (e := .noOperation) hi rfl

/-- Settles O43: an operation, a reset and a clock cycle all leave the parameters. -/
theorem parametersNeverChange : Obligations.ParametersNeverChange := by
  intro s t h
  rcases step_cases s with ⟨-, he⟩ | ⟨more, -, he⟩ | ⟨p, more, -, he⟩ | ⟨w, more, -, he⟩ | ⟨w, more, i, rest, -, -, he⟩ |
    ⟨w, more, -, he⟩ <;> rw [he] at h
  · cases h; rfl
  · cases h; rfl
  · cases h; unfold pinCycle; split <;> rfl
  · cases h; rfl
  · exact (exec_params h :)
  · cases h

/-- Settles O37: the reset event is `hardReset`, the cycle with `rst` high `resetEdge`, and both set every register. -/
theorem resetTakesTheResetState : Obligations.ResetTakesTheResetState := by
  intro s more x hi hx
  rcases hx with rfl | ⟨p, rfl, hrst⟩
  · exact ⟨_, step_reset hi, rfl, rfl, rfl, rfl, rfl, rfl, rfl, rfl, rfl, rfl, rfl, rfl, rfl, rfl, rfl, rfl, rfl, rfl, rfl⟩
  · have hcycle : step s = .next (resetEdge { s with inputs := more }) := by rw [step_cycle hi, pinCycle, if_pos hrst]
    exact ⟨_, hcycle, rfl, rfl, rfl, rfl, rfl, rfl, rfl, rfl, rfl, rfl, rfl, rfl, rfl, rfl, rfl, rfl, rfl, rfl, rfl⟩

/-! ## Faults and refusals -/

/-- Where R35 holds a contribution has a next state: the counters keep it inside the buffer (R59). -/
theorem Receiving.contribute_next {u : State} (hu : Receiving u.toBlock) (bs : List Byte) :
    ∃ t, contribute bs u = .next t := by
  obtain ⟨t, ht, -⟩ := contribute_effect bs u hu.sum
  exact ⟨t, ht⟩

/-- Where R35 holds CHUNK(`c`) answers a next state for every chunk that is not refused (R100). -/
theorem performChunk_answers {s : State} (hs : RegistersInv s.toBlock) (c : List Byte) :
    (∃ t, performChunk c s = .next t) ∨
    (s.params.chunkMax.toNat < c.length ∧ performChunk c s = .refused .chunkTooLong) := by
  cases hc : chunkFits s.params c with
  | false => exact .inr ⟨Nat.lt_of_not_le (of_decide_eq_false hc), onChunk_refused _ hc⟩
  | true =>
    left
    rcases performChunk_cases hc with ⟨-, he⟩ | ⟨ha, k, hb, slice, hframe, he⟩ | ⟨-, k, -, he⟩ | ⟨ha, hnone, hm, he⟩ |
      ⟨-, -, -, he⟩ <;> rw [he]
    · exact ⟨_, rfl⟩
    · exact ((Contributes.frame hframe).receiving hs ha).contribute_next slice
    · exact ⟨_, rfl⟩
    · exact ((Contributes.continuation hnone hm).receiving hs ha).contribute_next c
    · exact ⟨_, rfl⟩

/-- Where R35 holds every operation answers a next state, but for RDPAY outside its window and a chunk that is too
long (R11). -/
theorem exec_answers {s : State} (hs : RegistersInv s.toBlock) (i : Instr) :
    (∃ t, exec i s = .next t) ∨
    (∃ a, i = .rdpay a ∧ ¬(s.phase = .done ∧ a.toNat < s.bufLen.toNat) ∧ exec i s = .refused .outsideReadWindow) ∨
    (∃ c, chunkOf s.params.protocolLowNibble i = some c ∧ s.params.chunkMax.toNat < c.length ∧
      exec i s = .refused .chunkTooLong) := by
  have hchunk (c : List Byte) (hc : chunkOf s.params.protocolLowNibble i = some c) : (∃ t, exec i s = .next t) ∨
      s.params.chunkMax.toNat < c.length ∧ exec i s = .refused .chunkTooLong :=
    exec_chunkOf hc ▸ performChunk_answers hs c
  cases i with
  | start => exact .inl ⟨_, exec_start s⟩
  | cancel =>
    cases ha : isActive s.phase with
    | true => exact .inl ⟨_, exec_cancel_active ha⟩
    | false => exact .inl ⟨_, exec_cancel_inactive ha⟩
  | rdstat => exact .inl ⟨_, exec_rdstat s⟩
  | rdhdr => exact .inl ⟨_, exec_rdhdr s⟩
  | rdpay a =>
    by_cases hw : s.phase = .done ∧ a.toNat < s.bufLen.toNat
    · exact .inl ⟨_, exec_rdpay_inside hw⟩
    · exact .inr (.inl ⟨a, rfl, hw, exec_rdpay_outside hw⟩)
  | chunkIgnored c | chunkSync c | chunkMalformed c | chunkCont c | chunkNoise c | frameHdr hd slice =>
    exact (hchunk _ rfl).imp_right fun h => .inr ⟨_, rfl, h⟩

/-- Under R35 a step that performs an instruction answers a next state or the refusal of an RDPAY: the decoder has
measured every chunk it hands on. -/
theorem step_of_decode_answers {s : State} {w : PortWord} {more : List Stimulus} {i : Instr} {rest : Option PortWord}
    (hregs : RegistersInv s.toBlock) (hi : s.inputs = .port w :: more)
    (hd : decode (decodeContext s) w = .ok (i, rest)) :
    (∃ t, step s = .next t) ∨
    (step s = .refused .outsideReadWindow ∧ ∃ a, w = .readAddress a ∧ ¬(s.phase = .done ∧ a.toNat < s.bufLen.toNat)) := by
  rw [step_of_decode hi hd]
  rcases exec_answers (s := { s with inputs := putBack rest more }) hregs i with
    hnext | ⟨a, rfl, hw, he⟩ | ⟨c, hc, hlen, -⟩
  · exact .inl hnext
  · exact .inr ⟨he, a, eq_readAddress_of_decode_rdpay hd, hw⟩
  · obtain ⟨hwf, -⟩ := decodedInstructionIsWellFormed _ _ _ _ hd
    have hfits := (chunkFits_iff _ _).1 (chunkFits_of_wellFormed hwf hc)
    exact absurd hlen (Nat.not_lt.2 hfits)

/-- Settles O42: a chunk is refused by the decoder, an RDPAY by its window. -/
theorem stepStopsOnlyWhereRefused : Obligations.StepStopsOnlyWhereRefused := by
  intro s hs
  obtain ⟨hregs, -⟩ := hs
  match hi : s.inputs with
  | [] => exact .inl ⟨s, (nothingHappensUnrequested s).1 hi⟩
  | .reset :: more => exact .inl ⟨_, step_reset hi⟩
  | .cycle p :: more => exact .inl ⟨_, step_cycle hi⟩
  | .port w :: more =>
    cases hd : decode (decodeContext s) w with
    | ok r =>
      rcases step_of_decode_answers hregs hi hd with hnext | ⟨he, a, rfl, hw⟩
      · exact .inl hnext
      · exact .inr (.inl ⟨he, a, more, rfl, hw⟩)
    | error e =>
      rw [step_of_reject hi hd]
      split
      · subst e
        obtain ⟨c, hlen, hw⟩ := decode_chunkTooLong hd
        refine .inr (.inr ⟨rfl, c, more, hlen, ?_⟩)
        rcases hw with ⟨req, rfl⟩ | rfl
        · exact .inl ⟨req, rfl⟩
        · exact .inr rfl
      · exact .inl ⟨_, rfl⟩

/-- Settles O41: the answers of an operation where R35 holds are next states and refusals. -/
theorem bufferNeverOverflows : Obligations.BufferNeverOverflows := by
  intro s f hs
  constructor
  · obtain ⟨hregs, -⟩ := hs
    intro i he
    rcases exec_answers hregs i with ⟨t, h⟩ | ⟨a, -, -, h⟩ | ⟨c, -, -, h⟩ <;> rw [h] at he <;> cases he
  · intro he
    rcases stepStopsOnlyWhereRefused s hs with ⟨t, h⟩ | ⟨h, -⟩ | ⟨h, -⟩ <;> rw [h] at he <;> cases he

end Sys2Proof.Machine
end

section
/-! Requests and pins (30_encoding.md R83, 10_state.md R40 to R42): the steps of one request vector, one clock cycle, and
a chunk spelled at the pins. -/

namespace Sys2Proof.Machine

theorem run_succ_of_step {k : Nat} {s t : State} (h : step s = .next t) :
    Host.Core.run core (k + 1) s = Host.Core.run core k t := by
  have hstep : core.step s = .next t := h
  simp only [Host.Core.run, hstep]

theorem run_one (s : State) : Host.Core.run core 1 s = step s := by
  have hstep : core.step s = step s := rfl
  simp only [Host.Core.run, hstep]
  cases step s <;> rfl

/-! ## A request vector (R83) -/

section

variable {s : State} {more : List Stimulus} {c : List Byte}

/-- The request 0b001 is CHUNK(`c`), also where the chunk is refused (R100). -/
theorem step_chunkRequest (hi : s.inputs = .port (.request 0b001#3 c) :: more) :
    step s = performChunk c { s with inputs := more } := by
  cases hc : chunkFits s.params c with
  | true => rw [step_of_decode hi (decode_chunkRequest hc), exec_selectRow]; rfl
  | false =>
    have hd : decode (decodeContext s) (.request 0b001#3 c) = .error .chunkTooLong := by
      simp [decode, reqCancel, reqStart, reqCommit, decodeChunk, decodeContext, hc, Except.map]
    rw [step_of_reject hi hd, if_pos rfl]
    exact (onChunk_refused (s := { s with inputs := more }) _ hc).symm

end

/-- What CANCEL makes of a state (R152, R153). -/
def cancelled (s : State) : State :=
  if isActive s.phase then enterFailed .timeout (s.bufLen.setWidth 32) s else emit .evNone none s

theorem exec_cancel (s : State) : exec .cancel s = .next (cancelled s) := by
  rw [cancelled]
  split
  · exact exec_cancel_active ‹_›
  · exact exec_cancel_inactive (Bool.eq_false_iff.2 ‹_›)

/-- CANCEL neither reads nor writes what the environment does next. -/
theorem cancelled_with_inputs (s : State) (l : List Stimulus) :
    cancelled { s with inputs := l } = { cancelled s with inputs := l } := by
  unfold cancelled
  split <;> rfl

/-- A request with `req[2]` set performs CANCEL and leaves the other bits requested. -/
theorem step_cancelRequest (s : State) (c : List Byte) (more : List Stimulus) {req : BitVec 3}
    (hreq : reqCancel req = true) :
    step { s with inputs := .port (.request req c) :: more } =
      .next { cancelled s with inputs := putBack (restOfRequest (reqStart req) (reqCommit req) c) more } := by
  have hi : ({ s with inputs := .port (.request req c) :: more } : State).inputs = .port (.request req c) :: more := rfl
  rw [step_of_decode hi (if_pos hreq), exec_cancel]
  exact congrArg _ (cancelled_with_inputs s _)

/-- A request with `req[1]` the highest bit set performs START and leaves `req[0]` requested. -/
theorem step_startRequest (s : State) (c : List Byte) (more : List Stimulus) {req : BitVec 3}
    (hcancel : reqCancel req = false) (hreq : reqStart req = true) :
    step { s with inputs := .port (.request req c) :: more } =
      .next { openSession s with inputs := putBack (restOfRequest false (reqCommit req) c) more } := by
  have hi : ({ s with inputs := .port (.request req c) :: more } : State).inputs = .port (.request req c) :: more := rfl
  exact step_of_decode hi (by rw [decode, if_neg (by simp [hcancel]), if_pos hreq])

/-- Settles O52: each step performs the highest bit that is left and keeps the lower ones requested. -/
theorem requestBitsRunInOrder : Obligations.RequestBitsRunInOrder := by
  intro s c more
  have hcancel {req : BitVec 3} (hreq : reqCancel req = true) := step_cancelRequest s c more hreq
  have hstart (u : State) {req : BitVec 3} := step_startRequest u c more (req := req)
  have hchunk (u : State) :
      step { u with inputs := .port (.request 0b001#3 c) :: more } = performChunk c { u with inputs := more } :=
    step_chunkRequest rfl
  simp only [chunkAfter, runAll, exec_cancel, exec_start, exec_chunkInstr, cancelled_with_inputs]
  refine ⟨?_, ?_, ?_, ?_⟩
  · exact (run_succ_of_step (hcancel rfl)).trans <|
      (run_succ_of_step (hstart (cancelled s) (req := 0b011#3) rfl rfl)).trans <|
      (run_one _).trans (hchunk (openSession (cancelled s)))
  · exact (run_succ_of_step (hstart s rfl rfl)).trans <| (run_one _).trans (hchunk (openSession s))
  · exact (run_succ_of_step (hcancel rfl)).trans <| (run_one _).trans (hchunk (cancelled s))
  · exact (run_succ_of_step (hcancel rfl)).trans <|
      (run_one _).trans (hstart (cancelled s) (req := 0b010#3) rfl rfl)

/-! ## One clock cycle (R40 to R42) -/

theorem mkReq_bits (cancel start commit : Bool) :
    (mkReq cancel start commit).getLsbD 2 = cancel ∧ (mkReq cancel start commit).getLsbD 1 = start ∧
      (mkReq cancel start commit).getLsbD 0 = commit := by
  revert cancel start commit
  decide

theorem dropAfterPulses_iff (p : PinIn) (s : State) :
    dropAfterPulses p s = true ↔ s.drop = true ∨ ((p.start = true ∨ p.cancel = true) ∧ s.staged ≠ []) := by
  simp [dropAfterPulses]

theorem commits_iff (p : PinIn) (s : State) :
    commits p s = true ↔ p.inValid = true ∧ p.inLast = true ∧ s.drop = false ∧
      ¬((p.start = true ∨ p.cancel = true) ∧ s.staged ≠ []) := by
  have hdrop : dropAfterPulses p s = false ↔
      s.drop = false ∧ ¬((p.start = true ∨ p.cancel = true) ∧ s.staged ≠ []) := by
    rw [← Bool.not_eq_true, dropAfterPulses_iff, not_or, Bool.not_eq_true]
  simp [commits, hdrop, and_assoc]

theorem step_clockEdge {s : State} {p : PinIn} {more : List Stimulus} (hi : s.inputs = .cycle p :: more)
    (hrst : p.rst = false) : step s = .next (clockEdge p { s with inputs := more }) := by
  rw [step_cycle hi, pinCycle, if_neg (by simp [hrst])]

/-- Settles O53: the request vector bit by bit, the staging rules by the pins that select them. -/
theorem clockCycleFollowsPinRules : Obligations.ClockCycleFollowsPinRules := by
  intro s p more hi hrst
  obtain ⟨hcancel, hstart, hcommit⟩ := mkReq_bits p.cancel p.start (commits p s)
  refine ⟨_, _, _, step_clockEdge hi hrst, rfl, rfl, rfl, rfl, hcancel, hstart, ?_, ?_, ?_, ?_, ?_, ?_, ?_, rfl, rfl⟩
  · rw [← commits_iff]
    exact iff_of_eq (congrArg (· = true) hcommit)
  · intro h
    exact if_pos (hcommit.symm.trans h)
  · rintro ⟨hvalid, hlast⟩
    simp [stagedAfter, dropAfter, hvalid, hlast]
  · rintro ⟨hvalid, hlast⟩
    simp [stagedAfter, hvalid, hlast]
  · intro hvalid
    simp [stagedAfter, hvalid]
  · intro hnot
    rw [← dropAfterPulses_iff, clockEdge_drop, dropAfter, if_neg (by simpa using hnot)]
    rfl
  · intro hwindow
    exact if_pos ((inReadWindow_iff _ _ _).2 hwindow)

/-- Settles O55: the pins are the registers, and the reads return them. -/
theorem readsSampleTheOutputPins : Obligations.ReadsSampleTheOutputPins := fun s =>
  ⟨_, _, statusRecord s, s.hdr, exec_rdstat s, rfl, exec_rdhdr s, rfl, rfl, rfl, rfl, rfl, rfl, rfl, rfl, rfl, rfl,
    rfl, rfl⟩

/-! ## A chunk spelled at the pins (R42) -/

/-- The thirteen items alone decide what a contribution leaves in them and emits. -/
theorem contribute_of_same_block {bs : List Byte} {u v t : State} (hb : v.toBlock = u.toBlock)
    (h : contribute bs u = .next t) :
    ∃ t', contribute bs v = .next t' ∧ t'.toBlock = t.toBlock ∧ t'.out = t.out ∧ SamePorts v t' := by
  obtain ⟨b⟩ := v
  obtain rfl : b = u.toBlock := hb
  rcases contribute_cases bs u with ⟨hlt, he⟩ | ⟨-, -, he⟩ | ⟨heq, hroom, he⟩ | ⟨hlt, hroom, he⟩ <;>
    rw [he] at h <;> cases h
  · exact ⟨_, contribute_of_overDelivery hlt, rfl, rfl, rfl, rfl, rfl, rfl, rfl, rfl⟩
  · exact ⟨_, contribute_of_complete heq hroom, rfl, rfl, rfl, rfl, rfl, rfl, rfl, rfl⟩
  · exact ⟨_, contribute_of_incomplete hlt hroom, rfl, rfl, rfl, rfl, rfl, rfl, rfl, rfl⟩

/-- The thirteen items and the parameters alone decide what CHUNK(`c`) leaves in them and emits. -/
theorem performChunk_of_same_block {c : List Byte} {s v u : State} (hb : v.toBlock = s.toBlock)
    (hp : v.params = s.params) (h : performChunk c s = .next u) :
    ∃ t, performChunk c v = .next t ∧ t.toBlock = u.toBlock ∧ t.out = u.out ∧ SamePorts v t := by
  obtain ⟨hfits, hcase⟩ := performChunk_next h
  have hlen := (chunkFits_iff _ _).1 (hp ▸ hfits)
  rcases hcase with ⟨ha, rfl⟩ | ⟨ha, hnone, hm, rfl⟩ | ⟨ha, i, hshort, rfl⟩ |
    ⟨ha, bs, w, ⟨i, hb', hframe, rfl⟩ | ⟨hnone, hm, rfl, rfl⟩, hw⟩ <;> rw [← hb] at ha
  · exact ⟨_, performChunk_inactive ha hlen, hb, rfl, rfl, rfl, rfl, rfl, rfl, rfl⟩
  · rw [← hb] at hm
    exact ⟨_, performChunk_noise ha hm hlen ((contents_noMarker_iff c).1 hnone), hb, rfl, rfl, rfl, rfl, rfl, rfl, rfl⟩
  · exact ⟨_, performChunk_shortHeader ha hlen hshort, by simp [enterFailed, hb], rfl, rfl, rfl, rfl, rfl, rfl, rfl⟩
  · rw [performChunk_frame ha hlen hframe, hp]
    exact contribute_of_same_block (v := loadHeader _ v) (by simp [loadHeader, hb]) hw
  · rw [← hb] at hm
    rw [performChunk_cont ha hm hlen ((contents_noMarker_iff _).1 hnone)]
    exact contribute_of_same_block hb hw

/-- A byte that is not the chunk's last is staged: its cycle requests nothing (R42). -/
theorem run_byteCycle {s : State} {b : Byte} {more : List Stimulus} (hi : s.inputs = .cycle (byteCycle b false) :: more)
    (k : Nat) :
    ∃ t, Host.Core.run core (k + 1 + 1) s = Host.Core.run core k t ∧ t.toBlock = s.toBlock ∧ t.params = s.params ∧
      t.staged = s.staged ++ [b] ∧ t.drop = s.drop ∧ t.inputs = more := by
  have hreq : (clockEdge (byteCycle b false) { s with inputs := more }).inputs = .port (.request 0b000#3 []) :: more := by
    simp [pinRequest, commits, byteCycle, mkReq]
  rw [run_succ_of_step (step_clockEdge hi rfl), run_succ_of_step ((nothingHappensUnrequested _).2 _ _ hreq)]
  refine ⟨_, rfl, rfl, rfl, rfl, ?_, rfl⟩
  simp [dropAfter, dropAfterPulses, byteCycle]

/-- The chunk's last byte, with no pulse and `drop` low, requests CHUNK of all the staged bytes (R42). -/
theorem run_lastByteCycle {s : State} {b : Byte} {more : List Stimulus} (hi : s.inputs = .cycle (byteCycle b true) :: more)
    (hdrop : s.drop = false) :
    ∃ v, Host.Core.run core 2 s = performChunk (s.staged ++ [b]) v ∧ v.toBlock = s.toBlock ∧ v.params = s.params ∧
      v.staged = [] ∧ v.drop = false ∧ v.inputs = more := by
  have hreq : (clockEdge (byteCycle b true) { s with inputs := more }).inputs =
      .port (.request 0b001#3 (s.staged ++ [b])) :: more := by
    simp [pinRequest, commits, dropAfterPulses, byteCycle, mkReq, hdrop]
  rw [run_succ_of_step (step_clockEdge hi rfl), run_one, step_chunkRequest hreq]
  exact ⟨_, rfl, rfl, rfl, rfl, rfl, rfl⟩

/-- The cycles of a chunk end in CHUNK of the bytes staged before it and its own, with nothing left staged. -/
theorem run_chunkCycles (b : Byte) (c : List Byte) {s : State} {staged : List Byte} {more : List Stimulus}
    (hstaged : s.staged = staged) (hdrop : s.drop = false) (hi : s.inputs = chunkCycles (b :: c) ++ more) :
    ∃ v, Host.Core.run core (2 * (b :: c).length) s = performChunk (staged ++ b :: c) v ∧ v.toBlock = s.toBlock ∧
      v.params = s.params ∧ v.staged = [] ∧ v.drop = false ∧ v.inputs = more := by
  induction c generalizing b s staged with
  | nil => exact hstaged ▸ run_lastByteCycle hi hdrop
  | cons b' c ih =>
    obtain ⟨t, ht, hblock, hparams, hstagedt, hdropt, hinputs⟩ := run_byteCycle hi (2 * (b' :: c).length)
    obtain ⟨v, hv, hrest⟩ := ih b' hstagedt (hdropt.trans hdrop) hinputs
    rw [hstaged, List.append_assoc] at hv
    exact ⟨v, ht.trans hv, by simpa only [hblock, hparams] using hrest⟩

/-- Settles O54: the cycles end in CHUNK(`c`) on the same thirteen items, which decide what it leaves. -/
theorem pinChunkIsChunkOperation : Obligations.PinChunkIsChunkOperation := by
  intro s u c more hne hstaged hdrop hu
  rw [exec_chunkInstr] at hu
  obtain ⟨b, c, rfl⟩ := List.exists_cons_of_ne_nil hne
  obtain ⟨v, hv, hblock, hparams, hvstaged, hvdrop, hvinputs⟩ :=
    run_chunkCycles b c (s := { s with inputs := chunkCycles (b :: c) ++ more }) hstaged hdrop rfl
  obtain ⟨t, ht, htblock, htout, -, -, htstaged, htdrop, -, htinputs⟩ :=
    performChunk_of_same_block (s := s) hblock hparams hu
  refine ⟨t, ?_, htblock, htout, htstaged.trans hvstaged, htdrop.trans hvdrop, htinputs.trans hvinputs⟩
  exact hv.trans ht

end Sys2Proof.Machine
end

section
/-! CHUNK (40_frame_synchronizer.md) and the reassembler's counters (41_payload_reassembler.md): the obligations that speak
of one operation. -/

namespace Sys2Proof.Machine

/-! ## CHUNK -/

/-- Settles O12: each of the five constructors performs CHUNK(`c`), as the selected row does. -/
theorem chunkRowsAreOneOperation : Obligations.ChunkRowsAreOneOperation := by
  intro s c
  simp only [exec_chunkIgnored, exec_chunkSync, exec_chunkMalformed, exec_chunkCont, exec_chunkNoise, exec_chunkInstr,
    and_self]

/-- A chunk longer than CHUNK_MAX is refused (R100). -/
theorem performChunk_tooLong {s : State} {c : List Byte} (h : s.params.chunkMax.toNat < c.length) :
    performChunk c s = .refused .chunkTooLong :=
  onChunk_refused _ (decide_eq_false (Nat.not_le.2 h))

/-- Settles O13: every row performs CHUNK(`c`), a wire unit that of its 11 bytes and the slice. -/
theorem tooLongChunkIsRefused : Obligations.TooLongChunkIsRefused := by
  intro s c hc
  have hrefused := performChunk_tooLong hc
  refine ⟨?_, ?_, ?_, ?_, ?_, fun h slice hslice => ?_⟩
  · rw [exec_chunkIgnored, hrefused]
  · rw [exec_chunkSync, hrefused]
  · rw [exec_chunkMalformed, hrefused]
  · rw [exec_chunkCont, hrefused]
  · rw [exec_chunkNoise, hrefused]
  · rw [exec_frameHdr, performChunk_tooLong (by rwa [length_frameBytes])]

/-- In an active phase a wire unit loads the header it was composed from and contributes its slice (R71, R105). -/
theorem performChunk_frameBytes {s : State} {h : Header} {slice : List Byte} (ha : isActive s.phase = true)
    (hc : 11 + slice.length ≤ s.params.chunkMax.toNat) :
    performChunk (frameBytes s.params.protocolLowNibble h slice) s = contribute slice (loadHeader h s) := by
  rw [performChunk_frame ha (by rwa [length_frameBytes]) (contents_frameBytes _ h slice), extract_hdrBytes]

/-- Settles O11: the chunk is a frame with the composed header, and it is ignored in an inactive phase. -/
theorem frameHdrIsReceived : Obligations.FrameHdrIsReceived := by
  intro s h slice hc
  rw [exec_frameHdr]
  cases ha : isActive s.phase with
  | true =>
    obtain ⟨t, ht, heffect⟩ := contribute_effect slice (loadHeader h s) (by simp)
    refine ⟨t, (performChunk_frameBytes ha hc).trans ht, fun _ => heffect, fun hph => ?_⟩
    simp [isActive_of_inactive hph] at ha
  | false =>
    refine ⟨_, performChunk_inactive ha (by rwa [length_frameBytes]), fun hph => ?_, fun _ => emit_evNone_effect s⟩
    simp [isActive_of_active hph] at ha

/-- A contribution leaves the header registers (R130). -/
theorem contribute_hdr {bs : List Byte} {s t : State} (h : contribute bs s = .next t) : t.hdr = s.hdr := by
  rcases contribute_cases bs s with ⟨-, he⟩ | ⟨-, -, he⟩ | ⟨-, -, he⟩ | ⟨-, -, he⟩ <;> rw [he] at h <;> cases h <;> rfl

/-- Settles O15: the byte after the marker is `h[0]`, and 0x7E there gives the two fields under the default layout. -/
theorem fifthMarkerByteIsHeader : Obligations.FifthMarkerByteIsHeader := by
  intro s t bytes i hph hlow hi hfifth hlen h
  rw [exec_chunkSync] at h
  obtain ⟨hb, slice, hframe⟩ := exists_contents_frame hi hlen
  have hfits := (chunkFits_iff _ _).1 (performChunk_next h).1
  rw [performChunk_frame (isActive_of_active hph) hfits hframe] at h
  have hdrop := ((contents_frame_iff _ _ _ _).1 hframe).2
  have hh0 : hb.h0 = 0x7E#8 := by
    have hhead : (bytes.drop (i + 4))[0]? = some 0x7E#8 := by rw [List.getElem?_drop]; exact hfifth
    rw [hdrop] at hhead
    exact Option.some.inj hhead
  rw [contribute_hdr h, loadHeader_hdr, hlow]
  constructor
  · apply BitVec.eq_of_toNat_eq
    exact (sharedField_true_toNat hb.h0).trans (by rw [hh0]; rfl)
  · apply BitVec.eq_of_toNat_eq
    have htarget : (extract true hb).target.toNat = hb.h1.toNat * 16 + hb.h0.toNat / 16 := sharedIdent_true_toNat _ _
    rw [BitVec.extractLsb'_toNat, htarget, hh0]
    simp

/-- Settles O16: in an inactive phase and in HUNT any such chunk is ignored; in COLLECT at least one byte is owed, so
the contribution of none leaves the counters. -/
theorem emptyChunkChangesNothing : Obligations.EmptyChunkChangesNothing := by
  intro s hs
  obtain ⟨hregs, -⟩ := hs
  have ⟨_, _, hcollect, _⟩ := hregs
  rw [exec_chunkInstr]
  have hlen : ([] : List Byte).length ≤ s.params.chunkMax.toNat := Nat.zero_le _
  cases ha : isActive s.phase with
  | false => exact ⟨_, performChunk_inactive ha hlen, emit_evNone_effect s⟩
  | true =>
    cases hm : s.hdrMatched with
    | false => exact ⟨_, performChunk_noise ha hm hlen rfl, emit_evNone_effect s⟩
    | true =>
      have hph := hregs.collect_of_matched ha hm
      obtain ⟨-, -, -, hpos, -⟩ := hcollect hph
      obtain ⟨t, ht, htm, hhdr, hports, -, hincomplete, -⟩ :=
        contribute_effect [] s (hregs.receiving_of_collect hph).sum
      obtain ⟨htph, hcode, hoff, hrem, hlen', ⟨-, hbytes⟩, hemit⟩ := hincomplete hpos
      rw [List.length_nil, Nat.sub_zero] at hrem
      refine ⟨t, (performChunk_cont ha hm hlen rfl).trans ht, ?_, hemit, fun a => hbytes a (Nat.lt_or_ge _ _), hports⟩
      exact ⟨htph.trans hph.symm, htm, hhdr, BitVec.eq_of_toNat_eq hrem, BitVec.eq_of_toNat_eq hlen', hcode, hoff⟩

/-! ## The counters -/

/-- Settles O23: with the whole buffer owed, 65535 bytes end at address 65534 and one more is owed by no one. -/
theorem largestFrameFillsTheBuffer : Obligations.LargestFrameFillsTheBuffer := by
  intro s bs hsize hrem hbuf
  obtain ⟨t, ht, -, -, -, hover, -, hcomplete⟩ := contribute_effect bs s (by rw [hsize, hrem, hbuf]; rfl)
  have hrem' : s.remaining.toNat = 65535 := by rw [hrem]; rfl
  constructor
  · intro hlen
    obtain ⟨hph, -, -, hremt, hlent, ⟨hwritten, -⟩, -⟩ := hcomplete (by omega)
    refine ⟨t, ht, hph, by rw [hlent, hsize]; rfl, by rw [hremt]; rfl, fun b hb => ?_⟩
    simpa [hbuf] using hwritten 65534 b hb
  · intro hlen
    obtain ⟨hph, hcode, hoff, -, -, hbytes, -⟩ := hover (by omega)
    exact ⟨t, ht, hph, hcode, by rw [hoff, hsize]; rfl, hbytes⟩

/-- Settles O21: the owed bytes complete the payload, after which a chunk is ignored; with excess bytes in it the same
chunk is an over-delivery. -/
theorem excessBytesDependOnChunking : Obligations.ExcessBytesDependOnChunking := by
  intro s c d hs hph hc hd hcd hfind hlen
  obtain ⟨hregs, -⟩ := hs
  obtain ⟨hm, -, -, hsum⟩ := hregs.receiving_of_collect hph
  have ha : isActive s.phase = true := isActive_of_active (.inr hph)
  have hdpos : 0 < d.length := List.length_pos_iff.2 hd
  rw [List.length_append] at hlen
  constructor
  · obtain ⟨t, ht, -, -, ⟨hparams, -⟩, -, -, hcomplete⟩ := contribute_effect c s hsum
    obtain ⟨htph, -⟩ := hcomplete hc
    have hignored : performChunk d t = .next (emit .evNone none t) :=
      performChunk_inactive (isActive_of_inactive (.inr (.inl htph))) (by rw [hparams]; omega)
    obtain ⟨hsame, -⟩ := emit_evNone_effect t
    refine ⟨t, _, ?_, htph, (exec_chunkInstr t d).trans hignored, hsame, rfl⟩
    rw [exec_chunkInstr, performChunk_cont ha hm (by omega) hfind, ht]
  · have hover : contribute (c ++ d) s = .next (enterFailed .overDelivery (s.hdr.size.setWidth 32) s) :=
      contribute_of_overDelivery (by rw [List.length_append]; omega)
    refine ⟨enterFailed .overDelivery (s.hdr.size.setWidth 32) s, ?_, rfl, rfl, rfl, rfl⟩
    rw [exec_chunkInstr, performChunk_cont ha hm (by rwa [List.length_append]) hcd, hover]

/-- A whole header reaches seven bytes past the marker (R81). -/
theorem length_of_contents_frame {c slice : List Byte} {k : Nat} {h : HdrBytes} (hc : contents c = .frame k h slice) :
    k + 11 ≤ c.length := by
  obtain ⟨hk, hdrop⟩ := (contents_frame_iff _ _ _ _).1 hc
  have hmark := findMarker_add_four_le hk
  have hlen := congrArg List.length hdrop
  rw [List.length_drop, List.length_append, length_hdrList] at hlen
  omega

/-- CHUNK is performed by the five rows and by the wire unit (R82). -/
theorem row_or_frameHdr_of_chunkOf {low : Bool} {i : Instr} {c : List Byte} (h : chunkOf low i = some c) :
    i ∈ [.chunkIgnored c, .chunkSync c, .chunkMalformed c, .chunkCont c, .chunkNoise c] ∨
    ∃ hd slice, i = .frameHdr hd slice := by
  cases i with
  | start | cancel | rdstat | rdhdr | rdpay => cases h
  | chunkIgnored | chunkSync | chunkMalformed | chunkCont | chunkNoise => cases h; simp
  | frameHdr hd slice => exact .inr ⟨hd, slice, rfl⟩

/-- Settles O22: without START and a whole header only a continuation moves the counters, and it appends. -/
theorem accumulatorIsMonotonic : Obligations.AccumulatorIsMonotonic := by
  intro s t i hs h hstart hshort hnoframe
  obtain ⟨hregs, -⟩ := hs
  have hcont {c bs : List Byte} {u : State} (hi : chunkOf s.params.protocolLowNibble i = some c)
      (hu : Contributes c s bs u) : u = s := by
    cases hu with
    | continuation => rfl
    | frame hframe =>
      rcases row_or_frameHdr_of_chunkOf hi with hrow | ⟨hd, slice, hi'⟩
      · have hlen := hshort c hrow _ ((contents_frame_iff _ _ _ _).1 hframe).1
        exact absurd (length_of_contents_frame hframe) (Nat.not_le.2 hlen)
      · exact absurd hi' (hnoframe hd slice)
  have happend {bs : List Byte} (hrec : Receiving s.toBlock) (hlen : bs.length ≤ s.remaining.toNat) :
      s.bufLen.toNat ≤ (appendBytes bs s).bufLen.toNat ∧ (appendBytes bs s).remaining.toNat ≤ s.remaining.toNat ∧
        ∀ a < s.bufLen.toNat, Memory.read (appendBytes bs s).buf a = Memory.read s.buf a := by
    obtain ⟨-, hbuf, hrem⟩ := hrec.after_append hlen
    obtain ⟨-, hbelow⟩ := appended_writeBytes bs s (appendBytes bs s) rfl
    exact ⟨by omega, by omega, fun a ha => hbelow a (.inl ha)⟩
  cases exec_update h with
  | opened hi => exact absurd hi hstart
  | silent | timedOut | malformed => exact ⟨le_rfl, le_rfl, fun _ _ => rfl⟩
  | overDelivered hi _ hu => cases hcont hi hu; exact ⟨le_rfl, le_rfl, fun _ _ => rfl⟩
  | completed hi ha hu hlen =>
    have hrec := hu.receiving hregs ha
    cases hcont hi hu
    exact happend hrec hlen.le
  | collected hi ha hu hlen =>
    have hrec := hu.receiving hregs ha
    cases hcont hi hu
    exact happend hrec hlen.le

end Sys2Proof.Machine
end

section
/-! Events and errors (10_state.md R39, 60_exceptions.md), sessions (42_session_control.md R155, R157) and what the read-out
says of them (43_readout.md R174). -/

namespace Sys2Proof.Machine

/-- Settles O4: of the seven updates only those of CHUNK write the buffer. -/
theorem onlyChunkWritesTheBuffer : Obligations.OnlyChunkWritesTheBuffer := by
  intro s t i hi h
  have hnochunk : chunkOf s.params.protocolLowNibble i = none := by
    rcases hi with rfl | rfl | rfl | rfl | ⟨a, rfl⟩ <;> rfl
  cases exec_update h with
  | opened | silent | timedOut | malformed => rfl
  | overDelivered hchunk | completed hchunk | collected hchunk => simp [hnochunk] at hchunk

/-! ## Errors -/

/-- Settles O30: the three entries into FAILED, each from an active phase. -/
theorem errorEntryIsPrecise : Obligations.ErrorEntryIsPrecise := by
  intro s t i e o h hev
  cases exec_update h with
  | opened | silent | collected | completed => cases hev
  | timedOut _ ha | malformed _ ha =>
    cases hev
    exact ⟨active_of_isActive ha, rfl, rfl, rfl, fun _ => rfl, fun _ => ⟨rfl, rfl, rfl, rfl⟩⟩
  | overDelivered _ ha hu =>
    cases hev
    exact ⟨active_of_isActive ha, rfl, rfl, rfl, fun _ => by rw [enterFailed_buf, hu.buf_eq], fun hne => absurd rfl hne⟩

/-- Settles O31: FAILED is inactive, so an operation other than START changes its outputs only. -/
theorem failedIsLeftOnlyByStart : Obligations.FailedIsLeftOnlyByStart := by
  intro s t i hph hi h
  obtain ⟨res, rfl⟩ := exec_inactive (isActive_of_inactive (.inr (.inr hph))) hi h
  obtain ⟨-, hregs, hbytes, -⟩ := emit_result_effect res s
  exact ⟨hregs, hbytes, rfl⟩

/-! ## Events -/

/-- Settles O32: EV_DONE comes with the update of a completed payload alone, EV_ERR with the three entries into FAILED. -/
theorem eventsCarryTheFinalState : Obligations.EventsCarryTheFinalState := by
  intro s t i h
  have hchunk {c : List Byte} (hi : chunkOf s.params.protocolLowNibble i = some c) :
      i ∉ [.start, .cancel, .rdstat, .rdhdr] ∧ i ∉ [.start, .rdstat, .rdhdr] ∧ ∀ a, i ≠ .rdpay a := by
    cases i <;> simp [chunkOf] at hi ⊢
  constructor
  · intro hd payload hev
    cases exec_update h with
    | opened | silent | timedOut | malformed | overDelivered | collected => cases hev
    | completed hi =>
      cases hev
      obtain ⟨hnot, -, hread⟩ := hchunk hi
      exact ⟨hnot, hread, rfl, rfl, rfl⟩
  · intro e o hev
    cases exec_update h with
    | opened | silent | completed | collected => cases hev
    | timedOut hi =>
      cases hev
      exact ⟨by simp [hi], by simp [hi], rfl, rfl, rfl⟩
    | malformed hi | overDelivered hi =>
      cases hev
      obtain ⟨-, hnot, hread⟩ := hchunk hi
      exact ⟨hnot, hread, rfl, rfl, rfl⟩

/-- Settles O33: the final state is in DONE, where the invariant gives the counters. -/
theorem completionMeansWholePayload : Obligations.CompletionMeansWholePayload := by
  intro s t i hd payload hs h hev
  obtain ⟨hregs, -⟩ := exec_keeps_inv hs h
  obtain ⟨-, -, hph, rfl, rfl⟩ := (eventsCarryTheFinalState s t i h).1 _ _ hev
  obtain ⟨-, -, -, hdone, -⟩ := hregs
  obtain ⟨-, hcode, -, hrem, hlen⟩ := hdone hph
  exact ⟨hph, Memory.length_readRange _ _ _, hlen, hrem, hcode⟩

/-- An event other than EV_NONE ends the session (R155). -/
theorem exec_inactive_of_event {i : Instr} {s t : State} (h : exec i s = .next t) (hev : t.out.event ≠ .evNone) :
    isActive t.phase = false := by
  cases exec_update h with
  | opened | silent | collected => exact absurd rfl hev
  | timedOut | malformed | overDelivered | completed => rfl

/-- In an inactive phase operations without START emit nothing (R155). -/
theorem eventsOf_inactive {is : List Instr} {s : State} (hs : isActive s.phase = false) (his : ∀ i ∈ is, i ≠ .start) :
    eventsOf is s = [] := by
  induction is generalizing s with
  | nil => rfl
  | cons i is ih =>
    rw [List.forall_mem_cons] at his
    rw [eventsOf]
    split
    · rename_i t h
      obtain ⟨res, rfl⟩ := exec_inactive hs his.1 h
      rw [ih (s := emit .evNone res s) hs his.2]
      rfl
    · rfl
    · rfl

/-- Settles O34: up to the first event nothing is emitted, and after it the phase is inactive. -/
theorem oneEventPerSession : Obligations.OneEventPerSession := by
  intro s is his
  induction is generalizing s with
  | nil => exact Nat.zero_le _
  | cons i is ih =>
    rw [List.forall_mem_cons] at his
    rw [eventsOf]
    split
    · rename_i t h
      split
      · exact ih t his.2
      · rename_i hev
        rw [eventsOf_inactive (exec_inactive_of_event h hev) his.2]
        rfl
    · exact Nat.zero_le _
    · exact Nat.zero_le _

/-! ## What the read-out says of an event -/

/-- Operations without START leave the thirteen items of an inactive phase (R174). -/
theorem runAll_inactive {is : List Instr} {s t : State} (hs : isActive s.phase = false) (his : ∀ i ∈ is, i ≠ .start)
    (h : runAll is s = .next t) : t.toBlock = s.toBlock := by
  induction is generalizing s with
  | nil => cases h; rfl
  | cons i is ih =>
    rw [List.forall_mem_cons] at his
    rw [runAll] at h
    split at h
    · rename_i u hu
      obtain ⟨res, rfl⟩ := exec_inactive hs his.1 hu
      exact ih (s := emit .evNone res s) hs his.2 h
    · cases h
    · cases h

/-- Settles O28: the event says what the registers held, which stand as long as no START comes. -/
theorem eventEqualsReadout : Obligations.EventEqualsReadout := by
  intro s t is hs his hrun
  obtain ⟨⟨-, -, -, hdone, -⟩, -, -, hout⟩ := hs
  constructor
  · intro hd payload hev
    rw [OutputInv, hev] at hout
    obtain ⟨hph, rfl, rfl⟩ := hout
    have hblock := runAll_inactive (isActive_of_inactive (.inr (.inl hph))) his hrun
    refine ⟨⟨_, exec_rdhdr t, by rw [hblock]; rfl⟩, Memory.length_readRange _ _ _, fun a b hb => ?_⟩
    obtain ⟨-, -, -, -, hlen⟩ := hdone hph
    have ha : a.toNat < s.hdr.size.toNat := by
      simpa using (List.getElem?_eq_some_iff.1 hb).1
    have hwindow : t.phase = .done ∧ a.toNat < t.bufLen.toNat := by rw [hblock, hlen]; exact ⟨hph, ha⟩
    rw [Memory.getElem?_readRange _ _ _ _ ha, Nat.zero_add, Option.some.injEq] at hb
    exact ⟨_, exec_rdpay_inside hwindow, by rw [hblock, hb]; rfl⟩
  · intro e o hev
    rw [OutputInv, hev] at hout
    obtain ⟨hph, rfl, rfl⟩ := hout
    have hblock := runAll_inactive (isActive_of_inactive (.inr (.inr hph))) his hrun
    refine ⟨_, statusRecord t, exec_rdstat t, rfl, ?_, ?_⟩
    · rw [← hblock]; exact statusWord_errCode _ _ _
    · rw [← hblock]; rfl

/-- Settles O29: each phase fixes the flag and the error but FAILED, where an over-delivery has a header. -/
theorem statusTakesNineValues : Obligations.StatusTakesNineValues := by
  intro s hs
  obtain ⟨⟨hidle, hhunt, hcollect, hdone, hfailed⟩, ⟨-, hover, -⟩, -⟩ := hs
  cases hph : s.phase with
  | idle =>
    obtain ⟨hm, -, -, -, hcode, -⟩ := hidle hph
    rw [hm, hcode]; decide
  | hunt =>
    obtain ⟨hm, -, -, -, hcode, -⟩ := hhunt hph
    rw [hm, hcode]; decide
  | collect =>
    obtain ⟨hm, hcode, -⟩ := hcollect hph
    rw [hm, hcode]; decide
  | done =>
    obtain ⟨hm, hcode, -⟩ := hdone hph
    rw [hm, hcode]; decide
  | failed =>
    obtain ⟨hne, -⟩ := hfailed hph
    cases hcode : s.errCode with
    | none => exact absurd hcode hne
    | malformedHeader | timeout => cases s.hdrMatched <;> decide
    | overDelivery => rw [(hover hcode).1]; decide

end Sys2Proof.Machine
end

section
/-! The transition table of `phase` (42_session_control.md R157) and split-invariance (41_payload_reassembler.md R136). -/

namespace Sys2Proof.Machine

/-! ## The transition table -/

/-- The three columns of a contribution in the table (R157): short of what is owed, exactly that, more. -/
theorem contribute_transition {bs : List Byte} {u t : State} (h : contribute bs u = .next t) :
    (bs.length < u.remaining.toNat → t.phase = .collect ∧ t.out.event = .evNone) ∧
    (bs.length = u.remaining.toNat → t.phase = .done ∧ t.out.event.isDone = true) ∧
    (u.remaining.toNat < bs.length → t.phase = .failed ∧ ∃ o, t.out.event = .evErr .overDelivery o) := by
  rcases contribute_cases bs u with ⟨hlen, he⟩ | ⟨-, -, he⟩ | ⟨hlen, -, he⟩ | ⟨hlen, -, he⟩ <;> rw [he] at h <;> cases h
  · exact ⟨by omega, by omega, fun _ => ⟨rfl, _, rfl⟩⟩
  · exact ⟨by omega, fun _ => ⟨rfl, rfl⟩, by omega⟩
  · exact ⟨fun _ => ⟨rfl, rfl⟩, by omega, by omega⟩

theorem isActive_of_not_active {ph : Phase} (h : ph ≠ .hunt ∧ ph ≠ .collect) : isActive ph = false := by
  cases ph <;> simp [isActive] at h ⊢

/-- The column CANCEL of the table. -/
theorem cancel_transition {s t : State} (h : exec .cancel s = .next t) :
    (s.phase = .hunt ∨ s.phase = .collect → t.phase = .failed ∧ ∃ o, t.out.event = .evErr .timeout o) ∧
    (s.phase ≠ .hunt ∧ s.phase ≠ .collect → t.phase = s.phase ∧ t.out.event = .evNone) := by
  constructor
  · intro hph
    rw [exec_cancel_active (isActive_of_active hph)] at h
    cases h
    exact ⟨rfl, _, rfl⟩
  · intro hph
    rw [exec_cancel_inactive (isActive_of_not_active hph)] at h
    cases h
    exact ⟨rfl, rfl⟩

/-- The columns CHUNK with a whole header and with a short one. -/
theorem marker_transition {s t : State} {c : List Byte} (ha : isActive s.phase = true)
    (h : performChunk c s = .next t) :
    (∀ i hb slice, findMarker c = some i → c.drop (i + 4) = hdrList hb ++ slice →
      (slice.length < hb.h5.toNat + 256 * hb.h6.toNat → t.phase = .collect ∧ t.out.event = .evNone) ∧
      (slice.length = hb.h5.toNat + 256 * hb.h6.toNat → t.phase = .done ∧ t.out.event.isDone = true) ∧
      (hb.h5.toNat + 256 * hb.h6.toNat < slice.length → t.phase = .failed ∧ ∃ o, t.out.event = .evErr .overDelivery o)) ∧
    (∀ i, findMarker c = some i → c.length < i + 11 → t.phase = .failed ∧ ∃ o, t.out.event = .evErr .malformedHeader o) := by
  have hlen := (chunkFits_iff _ _).1 (performChunk_next h).1
  constructor
  · intro i hb slice hi hdrop
    rw [performChunk_frame ha hlen ((contents_frame_iff _ _ _ _).2 ⟨hi, hdrop⟩)] at h
    rw [← extract_size_toNat s.params.protocolLowNibble hb]
    exact contribute_transition h
  · intro i hi hshort
    have hcontents := (contents_shortHeader_iff c i).2 ⟨hi, by rw [List.length_drop]; omega⟩
    rw [performChunk_shortHeader ha hlen hcontents] at h
    cases h
    exact ⟨rfl, _, rfl⟩

/-- Settles O35: operation by operation, CHUNK by its cases. -/
theorem phaseTransitionTable : Obligations.PhaseTransitionTable := by
  intro s t hs
  obtain ⟨⟨-, hhunt, hcollect, -⟩, -⟩ := hs
  refine ⟨fun h => ?_, cancel_transition, fun i hi h => ?_, fun c h => ?_⟩
  · cases h
    exact ⟨rfl, rfl⟩
  · obtain ⟨res, rfl, -⟩ := exec_read_next hi h
    exact ⟨rfl, rfl⟩
  · rw [exec_chunkInstr] at h
    have hlen := (chunkFits_iff _ _).1 (performChunk_next h).1
    refine ⟨fun hph => ?_, fun hph => marker_transition (isActive_of_active hph) h, fun hph hnone => ?_,
      fun hph hnone => ?_⟩
    · rw [performChunk_inactive (isActive_of_not_active hph) hlen] at h
      cases h
      exact ⟨rfl, rfl⟩
    · rw [performChunk_noise (isActive_of_active (.inl hph)) (hhunt hph).1 hlen hnone] at h
      cases h
      exact ⟨hph, rfl⟩
    · rw [performChunk_cont (isActive_of_active (.inr hph)) (hcollect hph).1 hlen hnone] at h
      exact contribute_transition h

/-! ## Split-invariance -/

/-- Two appends are one (R136). -/
theorem appendBytes_append (as bs : List Byte) {s : State}
    (hlen : (appendBytes as s).bufLen.toNat = s.bufLen.toNat + as.length) :
    appendBytes bs (appendBytes as s) = appendBytes (as ++ bs) s := by
  rw [appendBytes_bufLen] at hlen
  simp [appendBytes, hlen, Memory.writeBytes_append, BitVec.ofNat_add, BitVec.add_assoc, BitVec.sub_sub]

/-- What an incomplete contribution writes beside its append is overwritten by the next one. -/
theorem keepCollecting_appendBytes_keepCollecting (bs : List Byte) (u : State) :
    keepCollecting (appendBytes bs (keepCollecting u)) = keepCollecting (appendBytes bs u) := by
  simp [keepCollecting, appendBytes, emit]

theorem completePayload_appendBytes_keepCollecting (bs : List Byte) (u : State) :
    completePayload (appendBytes bs (keepCollecting u)) = completePayload (appendBytes bs u) := by
  simp [completePayload, keepCollecting, appendBytes, emit, doneEvent, Event.isDone, Event.isErr]

/-- After a first part that leaves bytes owed, contributing the rest is contributing the whole (R136). -/
theorem contribute_append (as bs : List Byte) {s : State} (hfirst : as.length < s.remaining.toNat)
    (hall : (as ++ bs).length ≤ s.remaining.toNat) (hroom : s.bufLen.toNat + s.remaining.toNat ≤ bufBytes) :
    contribute bs (keepCollecting (appendBytes as s)) = contribute (as ++ bs) s := by
  have hwhole : (as ++ bs).length = as.length + bs.length := List.length_append
  have ⟨hlen, hrem⟩ := appendBytes_counters hfirst.le (by omega)
  have hroom' : (keepCollecting (appendBytes as s)).bufLen.toNat + bs.length ≤ bufBytes := by
    rw [keepCollecting_bufLen]; omega
  rcases Nat.lt_or_eq_of_le hall with hlt | heq
  · have hrest : bs.length < (keepCollecting (appendBytes as s)).remaining.toNat := by
      rw [keepCollecting_remaining]; omega
    rw [contribute_of_incomplete hlt (by omega), contribute_of_incomplete hrest hroom',
      keepCollecting_appendBytes_keepCollecting, appendBytes_append as bs hlen]
  · have hrest : bs.length = (keepCollecting (appendBytes as s)).remaining.toNat := by
      rw [keepCollecting_remaining]; omega
    rw [contribute_of_complete heq (by omega), contribute_of_complete hrest hroom',
      completePayload_appendBytes_keepCollecting, appendBytes_append as bs hlen]

/-- Pieces of which only the last can use up what is owed make one contribution (R136). -/
theorem contributeAll_concat {ps : List (List Byte)} {last : List Byte} {s : State}
    (hbefore : ps = [] ∨ ps.flatten.length < s.remaining.toNat)
    (hall : (ps ++ [last]).flatten.length ≤ s.remaining.toNat)
    (hroom : s.bufLen.toNat + s.remaining.toNat ≤ bufBytes) :
    contributeAll (ps ++ [last]) s = contribute (ps ++ [last]).flatten s := by
  induction ps generalizing s with
  | nil =>
    simp only [List.nil_append, contributeAll, List.flatten_cons, List.flatten_nil, List.append_nil]
    cases contribute last s <;> rfl
  | cons p ps ih =>
    have hbefore' := hbefore.resolve_left (List.cons_ne_nil p ps)
    rw [List.flatten_cons, List.length_append] at hbefore'
    rw [List.cons_append, List.flatten_cons] at hall ⊢
    rw [List.length_append] at hall
    have hp : p.length < s.remaining.toNat := by omega
    have ⟨hlen, hrem⟩ := appendBytes_counters hp.le (by omega)
    rw [contributeAll, contribute_of_incomplete hp (by omega)]
    simp only
    rw [ih (.inr (by rw [keepCollecting_remaining]; omega)) (by rw [keepCollecting_remaining]; omega)
        (by rw [keepCollecting_remaining, keepCollecting_bufLen]; omega),
      contribute_append p _ hp (by rwa [List.length_append]) hroom]

/-- Pieces that leave bytes owed end in COLLECT with all of them appended. -/
theorem contributeAll_incomplete {ps : List (List Byte)} {s : State} (hne : ps ≠ [])
    (hlen : ps.flatten.length < s.remaining.toNat) (hroom : s.bufLen.toNat + s.remaining.toNat ≤ bufBytes) :
    contributeAll ps s = .next (keepCollecting (appendBytes ps.flatten s)) := by
  rcases List.eq_nil_or_concat ps with rfl | ⟨qs, q, rfl⟩
  · exact absurd rfl hne
  · rw [List.concat_eq_append] at hlen ⊢
    have hqs : qs.flatten.length ≤ (qs ++ [q]).flatten.length := by simp
    rw [contributeAll_concat (.inr (by omega)) hlen.le hroom, contribute_of_incomplete hlen (by omega)]

theorem readRange_eq_of_getElem? {m : Memory} {a : Nat} {bs : List Byte}
    (h : ∀ k b, bs[k]? = some b → Memory.read m (a + k) = b) : Memory.readRange m a bs.length = bs := by
  apply List.ext_getElem?
  intro k
  by_cases hk : k < bs.length
  · have hget := List.getElem?_eq_getElem hk
    rw [Memory.getElem?_readRange _ _ _ _ hk, h k _ hget, hget]
  · rw [List.getElem?_eq_none (by simpa using hk), List.getElem?_eq_none (by simpa using hk)]

/-- The pieces before a non-empty last one leave bytes owed. -/
theorem flatten_length_lt {ps : List (List Byte)} {last : List Byte} (hlast : last ≠ []) :
    ps.flatten.length < (ps ++ [last]).flatten.length := by
  have := List.length_pos_iff.2 hlast
  simp
  omega

/-- Settles O19: every piece but the last leaves bytes owed, so any number of pieces is one contribution. -/
theorem contributeIsSplitInvariant : Obligations.ContributeIsSplitInvariant := by
  intro s pieces last _ hbuf hrem htotal hlast
  have hsize := s.hdr.size.isLt
  have hbuf0 : s.bufLen.toNat = 0 := by rw [hbuf]; rfl
  have hroom : s.bufLen.toNat + s.remaining.toNat ≤ bufBytes := by rw [hbuf0, hrem, bufBytes]; omega
  have hall : (pieces ++ [last]).flatten.length = s.remaining.toNat := by rw [htotal, hrem]
  have hbefore (hne : pieces ≠ []) : pieces.flatten.length < s.remaining.toNat :=
    hall ▸ flatten_length_lt (hlast hne)
  have hwhole := contributeAll_concat ((eq_or_ne pieces []).imp_right hbefore) hall.le hroom
  refine ⟨hwhole, fun k hk hkle => ?_, ?_⟩
  · have hne : pieces ≠ [] := by
      rintro rfl
      rw [List.length_nil] at hkle
      omega
    have htake : (pieces.take k).flatten.length ≤ pieces.flatten.length :=
      ((List.take_sublist k pieces).flatten).length_le
    have hbefore' := hbefore hne
    have hktake : pieces.take k ≠ [] := by
      simpa [List.take_eq_nil_iff, hne] using Nat.ne_of_gt hk
    exact ⟨_, contributeAll_incomplete hktake (by omega) hroom, rfl, rfl⟩
  · obtain ⟨t, ht, -, -, -, -, -, hcomplete⟩ := contribute_effect (pieces ++ [last]).flatten s (by rw [hbuf0, hrem]; omega)
    obtain ⟨hph, -, -, hremt, hlent, ⟨hwritten, -⟩, hout, -⟩ := hcomplete hall
    rw [hbuf0] at hwritten
    refine ⟨t, hwhole.trans ht, hph, hlent, hremt, ?_, fun k b hb => by simpa using hwritten k b hb⟩
    rw [hout, ← htotal, readRange_eq_of_getElem? hwritten]

/-! ## Split-invariance of the block -/

/-- A chunk without a marker continues the payload of a session in COLLECT (R107), the last of several included. -/
theorem chunkAll_eq_contributeAll {ps : List (List Byte)} {last : List Byte} {s : State} (hph : s.phase = .collect)
    (hm : s.hdrMatched = true) (hbefore : ps.flatten.length < s.remaining.toNat)
    (hroom : s.bufLen.toNat + s.remaining.toNat ≤ bufBytes)
    (hnone : ∀ p ∈ ps ++ [last], findMarker p = none)
    (hfits : ∀ p ∈ ps ++ [last], p.length ≤ s.params.chunkMax.toNat) :
    chunkAll (ps ++ [last]) s = contributeAll (ps ++ [last]) s := by
  have hchunk (p : List Byte) (hp : p ∈ ps ++ [last]) : exec (chunkInstr s p) s = contribute p s := by
    rw [exec_chunkInstr, performChunk_cont (isActive_of_active (.inr hph)) hm (hfits p hp) (hnone p hp)]
  induction ps generalizing s with
  | nil => rw [List.nil_append, chunkAll, contributeAll, hchunk last (by simp)]; rfl
  | cons p ps ih =>
    rw [List.flatten_cons, List.length_append] at hbefore
    have ⟨hlen, hrem⟩ := appendBytes_counters (bs := p) (u := s) (by omega) (by omega)
    rw [List.cons_append, chunkAll, contributeAll, hchunk p (by simp), contribute_of_incomplete (by omega) (by omega)]
    rw [List.cons_append, List.forall_mem_cons] at hnone hfits
    have hactive : isActive (keepCollecting (appendBytes p s)).phase = true := rfl
    exact ih rfl hm (by rw [keepCollecting_remaining]; omega)
      (by rw [keepCollecting_remaining, keepCollecting_bufLen]; omega) hnone.2 hfits.2
      fun q hq => by rw [exec_chunkInstr, performChunk_cont hactive hm (hfits.2 q hq) (hnone.2 q hq)]

theorem chunkAll_singleton (c : List Byte) (s : State) : chunkAll [c] s = performChunk c s := by
  rw [chunkAll, exec_chunkInstr]
  cases performChunk c s <;> rfl

/-- Settles O20: the first part leaves bytes owed, the pieces continue it in COLLECT, and contributions of pieces are one
contribution. -/
theorem blockIsSplitInvariant : Obligations.BlockIsSplitInvariant := by
  intro s h first pieces last _ hph hmax htotal hlast hnone
  have ha := isActive_of_active hph
  have hsize := h.size.isLt
  have hrest := flatten_length_lt (ps := pieces) hlast
  have hfits (p : List Byte) (hp : p ∈ pieces ++ [last]) : p.length ≤ s.params.chunkMax.toNat := by
    have := (List.sublist_flatten_of_mem hp).length_le
    omega
  have hroom : (loadHeader h s).bufLen.toNat + (loadHeader h s).remaining.toNat ≤ bufBytes := by
    rw [loadHeader_bufLen, loadHeader_remaining, bufBytes]
    simp
    omega
  have hfirst : first.length < (loadHeader h s).remaining.toNat := by rw [loadHeader_remaining]; omega
  have hall : (first ++ (pieces ++ [last]).flatten).length ≤ (loadHeader h s).remaining.toNat := by
    rw [List.length_append, loadHeader_remaining]; omega
  have hwhole : 11 + (first ++ (pieces ++ [last]).flatten).length ≤ s.params.chunkMax.toNat := by
    rw [List.length_append]; omega
  have ⟨hlen, hrem⟩ := appendBytes_counters hfirst.le (by omega)
  have hopened : performChunk (frameBytes s.params.protocolLowNibble h first) s =
      .next (keepCollecting (appendBytes first (loadHeader h s))) :=
    (performChunk_frameBytes ha (by omega)).trans (contribute_of_incomplete hfirst (by omega))
  generalize hu : keepCollecting (appendBytes first (loadHeader h s)) = u at hopened
  have hroomu : u.bufLen.toNat + u.remaining.toNat ≤ bufBytes := by
    rw [← hu, keepCollecting_bufLen, keepCollecting_remaining]; omega
  have hremu : u.remaining.toNat = (pieces ++ [last]).flatten.length := by
    rw [← hu, keepCollecting_remaining, hrem, loadHeader_remaining]; omega
  calc chunkAll (frameBytes s.params.protocolLowNibble h first :: (pieces ++ [last])) s
      = chunkAll (pieces ++ [last]) u := by rw [chunkAll, exec_chunkInstr, hopened]
    _ = contributeAll (pieces ++ [last]) u :=
        chunkAll_eq_contributeAll (by rw [← hu]; rfl) (by rw [← hu]; rfl) (by omega) hroomu hnone (by rw [← hu]; exact hfits)
    _ = contribute (pieces ++ [last]).flatten u := contributeAll_concat (.inr (by omega)) hremu.ge hroomu
    _ = contribute (first ++ (pieces ++ [last]).flatten) (loadHeader h s) := hu ▸ contribute_append _ _ hfirst hall hroom
    _ = chunkAll [frameBytes s.params.protocolLowNibble h (first ++ (pieces ++ [last]).flatten)] s := by
        rw [chunkAll_singleton, performChunk_frameBytes ha hwhole]

end Sys2Proof.Machine
end

section
/-! What operations show of the state (42_session_control.md R150, 60_exceptions.md R201): states with the same registers
and the same bytes below `buf_len` answer every operation alike. -/

namespace Sys2Proof.Machine

/-- The two states agree on all that an operation can show: the parameters, the registers and the bytes below
`buf_len`. -/
structure SameView (s v : State) : Prop where
  params : v.params = s.params
  regs : SameRegisters s v
  bytes : ∀ a < s.bufLen.toNat, Memory.read v.buf a = Memory.read s.buf a

/-- The two answers stop alike, or show the same output and leave states that agree. -/
inductive SameAnswer : Result → Result → Prop
  | next {t w : State} (hout : w.out = t.out) (hview : SameView t w) : SameAnswer (.next t) (.next w)
  | fault (f : Fault) : SameAnswer (.fault f) (.fault f)
  | refused (r : Refusal) : SameAnswer (.refused r) (.refused r)

theorem sameView_openSession {s v : State} (hp : v.params = s.params) : SameView (openSession s) (openSession v) :=
  ⟨hp, ⟨rfl, rfl, rfl, rfl, rfl, rfl, rfl⟩, fun a ha => by simp at ha⟩

theorem readRange_congr {m m' : Memory} {a n : Nat} (h : ∀ k < n, Memory.read m' (a + k) = Memory.read m (a + k)) :
    Memory.readRange m' a n = Memory.readRange m a n := by
  apply List.ext_getElem?
  intro k
  by_cases hk : k < n
  · rw [Memory.getElem?_readRange _ _ _ _ hk, Memory.getElem?_readRange _ _ _ _ hk, h k hk]
  · rw [List.getElem?_eq_none (by simpa using hk), List.getElem?_eq_none (by simpa using hk)]

section

variable {s v : State} (h : SameView s v)

include h

theorem SameView.after_emit (ev : Event) (res : Option ReadResult) : SameView (emit ev res s) (emit ev res v) :=
  ⟨h.params, h.regs, h.bytes⟩

theorem SameView.answer_emit (ev : Event) (res : Option ReadResult) :
    SameAnswer (.next (emit ev res s)) (.next (emit ev res v)) := .next rfl (h.after_emit ev res)

theorem SameView.answer_enterFailed (e : ErrCode) (o : Offset) :
    SameAnswer (.next (enterFailed e o s)) (.next (enterFailed e o v)) := by
  obtain ⟨hp, ⟨-, hm, hhdr, hrem, hlen, -, -⟩, hbytes⟩ := h
  exact .next rfl ⟨hp, ⟨rfl, hm, hhdr, hrem, hlen, rfl, rfl⟩, hbytes⟩

theorem SameView.after_loadHeader (hd : Header) : SameView (loadHeader hd s) (loadHeader hd v) := by
  obtain ⟨hp, ⟨hph, -, -, -, -, hcode, hoff⟩, -⟩ := h
  exact ⟨hp, ⟨hph, rfl, rfl, rfl, rfl, hcode, hoff⟩, fun a ha => by simp at ha⟩

theorem SameView.after_append {bs : List Byte} (hlen : bs.length ≤ s.remaining.toNat)
    (hroom : s.bufLen.toNat + bs.length ≤ bufBytes) : SameView (appendBytes bs s) (appendBytes bs v) := by
  obtain ⟨hp, ⟨hph, hm, hhdr, hrem, hbuf, hcode, hoff⟩, hbytes⟩ := h
  refine ⟨hp, ⟨hph, hm, hhdr, by simp [hrem], by simp [hbuf], hcode, hoff⟩, fun a ha => ?_⟩
  rw [(appendBytes_counters hlen hroom).1] at ha
  rw [appendBytes_buf, appendBytes_buf, hbuf, Memory.read, Memory.read, Memory.lookup_writeBytes, Memory.lookup_writeBytes]
  split
  · rfl
  · exact hbytes a (by omega)

theorem SameView.answer_contribute (hs : Receiving s.toBlock) (bs : List Byte) :
    SameAnswer (contribute bs s) (contribute bs v) := by
  have hsize := s.hdr.size.isLt
  have hsum := hs.sum
  have ⟨_, _, hhdr, hrem, hlen, _, _⟩ := h.regs
  rcases Nat.lt_trichotomy bs.length s.remaining.toNat with hlt | heq | hgt
  · have hroom : s.bufLen.toNat + bs.length ≤ bufBytes := by rw [bufBytes]; omega
    rw [contribute_of_incomplete hlt hroom, contribute_of_incomplete (hrem ▸ hlt) (hlen ▸ hroom)]
    obtain ⟨hp, ⟨-, hm', hhdr', hrem', hlen', hcode', hoff'⟩, hbytes'⟩ := h.after_append hlt.le hroom
    exact .next rfl ⟨hp, ⟨rfl, hm', hhdr', hrem', hlen', hcode', hoff'⟩, hbytes'⟩
  · have hroom : s.bufLen.toNat + bs.length ≤ bufBytes := by rw [bufBytes]; omega
    rw [contribute_of_complete heq hroom, contribute_of_complete (hrem ▸ heq) (hlen ▸ hroom)]
    obtain ⟨hp, ⟨-, hm', hhdr', hrem', hlen', hcode', hoff'⟩, hbytes'⟩ := h.after_append heq.le hroom
    have hpayload : doneEvent (appendBytes bs v) = doneEvent (appendBytes bs s) := by
      have hcount := (appendBytes_counters heq.le hroom).1
      rw [doneEvent, doneEvent, hhdr']
      exact congrArg _ (readRange_congr fun k hk => hbytes' _ (by rw [appendBytes_hdr] at hk; omega))
    exact .next (by simp [hpayload]) ⟨hp, ⟨rfl, hm', hhdr', hrem', hlen', hcode', hoff'⟩, hbytes'⟩
  · rw [contribute_of_overDelivery hgt, contribute_of_overDelivery (hrem ▸ hgt), hhdr]
    exact h.answer_enterFailed _ _

theorem SameView.answer_performChunk (hs : RegistersInv s.toBlock) (c : List Byte) :
    SameAnswer (performChunk c s) (performChunk c v) := by
  have hp := h.params
  have ⟨hph, hm, _, _, _, _, _⟩ := h.regs
  rcases Nat.lt_or_ge s.params.chunkMax.toNat c.length with hlong | hfits
  · rw [performChunk_tooLong hlong, performChunk_tooLong (hp ▸ hlong)]
    exact .refused _
  have hfits' : c.length ≤ v.params.chunkMax.toNat := hp ▸ hfits
  cases ha : isActive s.phase with
  | false =>
    rw [performChunk_inactive ha hfits, performChunk_inactive (hph ▸ ha) hfits']
    exact h.answer_emit _ _
  | true =>
    have ha' : isActive v.phase = true := hph ▸ ha
    cases hc : contents c with
    | frame i hb slice =>
      rw [performChunk_frame ha hfits hc, performChunk_frame ha' hfits' hc, hp]
      exact (h.after_loadHeader _).answer_contribute ((Contributes.frame hc).receiving hs ha) slice
    | shortHeader i =>
      rw [performChunk_shortHeader ha hfits hc, performChunk_shortHeader ha' hfits' hc]
      exact h.answer_enterFailed _ _
    | noMarker =>
      have hnone := (contents_noMarker_iff c).1 hc
      cases hmatched : s.hdrMatched with
      | true =>
        rw [performChunk_cont ha hmatched hfits hnone, performChunk_cont ha' (hm.trans hmatched) hfits' hnone]
        exact h.answer_contribute ((Contributes.continuation hc hmatched).receiving hs ha) c
      | false =>
        rw [performChunk_noise ha hmatched hfits hnone, performChunk_noise ha' (hm.trans hmatched) hfits' hnone]
        exact h.answer_emit _ _

/-- Every operation answers alike where R35 holds. -/
theorem SameView.answer_exec (hs : RegistersInv s.toBlock) (i : Instr) : SameAnswer (exec i s) (exec i v) := by
  have hp := h.params
  have ⟨hph, hm, hhdr, hrem, hlen, hcode, hoff⟩ := h.regs
  cases i with
  | start => exact .next rfl (sameView_openSession hp)
  | cancel =>
    cases ha : isActive s.phase with
    | true =>
      rw [exec_cancel_active ha, exec_cancel_active (hph ▸ ha), hlen]
      exact h.answer_enterFailed _ _
    | false =>
      rw [exec_cancel_inactive ha, exec_cancel_inactive (hph ▸ ha)]
      exact h.answer_emit _ _
  | rdstat =>
    have hstatus : statusRecord v = statusRecord s := by simp only [statusRecord, hph, hm, hcode, hrem, hlen, hoff]
    rw [exec_rdstat, exec_rdstat, hstatus]
    exact h.answer_emit _ _
  | rdhdr =>
    rw [exec_rdhdr, exec_rdhdr, hhdr]
    exact h.answer_emit _ _
  | rdpay a =>
    by_cases hw : s.phase = .done ∧ a.toNat < s.bufLen.toNat
    · rw [exec_rdpay_inside hw, exec_rdpay_inside (by rwa [hph, hlen]), h.bytes _ hw.2]
      exact h.answer_emit _ _
    · rw [exec_rdpay_outside hw, exec_rdpay_outside (by rwa [hph, hlen])]
      exact .refused _
  | chunkIgnored c | chunkSync c | chunkMalformed c | chunkCont c | chunkNoise c =>
    rw [exec_chunkOf rfl, exec_chunkOf rfl]
    exact h.answer_performChunk hs c
  | frameHdr hd slice =>
    rw [exec_frameHdr, exec_frameHdr, hp]
    exact h.answer_performChunk hs _

/-- Any operations show the same of states that agree (R201). -/
theorem SameView.observe_eq (hs : RegistersInv s.toBlock) (is : List Instr) : observe is s = observe is v := by
  induction is generalizing s v with
  | nil => rfl
  | cons i is ih =>
    have hanswer := h.answer_exec hs i
    rw [observe, observe]
    generalize ht : exec i s = answer, exec i v = answer' at hanswer ⊢
    cases hanswer with
    | next hout hview =>
      simp only [hout, ih hview (exec_keeps_registersInv hs ht)]
    | fault | refused => rfl

end

/-- Settles O36: START leaves only the parameters of the state before. -/
theorem startHidesEarlierSession : Obligations.StartHidesEarlierSession := by
  intro s₁ s₂ u₁ u₂ is hp h₁ h₂
  cases h₁
  cases h₂
  exact (sameView_openSession hp.symm).observe_eq (registersInv_openSession s₁) is

end Sys2Proof.Machine
end
